-- ==== Sys2Proof/Word.lean ====
section
/-! DEFINITION. The word types of the CORE and their plainest conversions (00_scope.md R7, R8). -/

namespace Sys2Proof

/-- A register, a memory byte, a timer or the immediate `NN`: 8 bits (R30, R44, R105). -/
abbrev Byte := BitVec 8

/-- An instruction word, `I`, `PC` or a stack entry: 16 bits (R35, R36, R38, R104). -/
abbrev Word := BitVec 16

/-- The fields `X`, `Y`, `N` and a key code: 4 bits (R103, R43). -/
abbrev Nibble := BitVec 4

/-- The field `NNN`: a 12-bit absolute address (R105). -/
abbrev Addr12 := BitVec 12

end Sys2Proof
end

