-- ==== Sys2Proof/Syntax.lean ====
section
/-! DEFINITION. The instructions of the CORE: one constructor per row of spec/opcode_table.json (30_encoding.md R108,
R109). Every field bit of the word is kept, also a field that the rule ignores (the `X` of CLS and RET, the `Y` of SHR and
SHL), so an instruction and its word determine each other and a fault record can name the word (R252). -/

namespace Sys2Proof

/-- The 35 instructions of R108 and the five reserved groups of R109. -/
inductive Instr where
  /-- `0-E0` CLS; `x` is ignored (R107, R200). -/
  | cls (x : Nibble)
  /-- `0-EE` RET; `x` is ignored (R107, R130). -/
  | ret (x : Nibble)
  /-- `0NNN` SYS nnn, low byte neither E0 nor EE (R241). -/
  | sys (nnn : Addr12)
  /-- `1NNN` JP nnn (R131). -/
  | jp (nnn : Addr12)
  /-- `2NNN` CALL nnn (R132). -/
  | call (nnn : Addr12)
  /-- `3XNN` SE Vx, nn (R133). -/
  | seImm (x : Nibble) (nn : Byte)
  /-- `4XNN` SNE Vx, nn (R134). -/
  | sneImm (x : Nibble) (nn : Byte)
  /-- `5XY0` SE Vx, Vy (R135). -/
  | seReg (x y : Nibble)
  /-- `6XNN` LD Vx, nn (R150). -/
  | ldImm (x : Nibble) (nn : Byte)
  /-- `7XNN` ADD Vx, nn (R151). -/
  | addImm (x : Nibble) (nn : Byte)
  /-- `8XY0` LD Vx, Vy (R152). -/
  | ldReg (x y : Nibble)
  /-- `8XY1` OR Vx, Vy (R153). -/
  | orReg (x y : Nibble)
  /-- `8XY2` AND Vx, Vy (R154). -/
  | andReg (x y : Nibble)
  /-- `8XY3` XOR Vx, Vy (R155). -/
  | xorReg (x y : Nibble)
  /-- `8XY4` ADD Vx, Vy (R156). -/
  | addReg (x y : Nibble)
  /-- `8XY5` SUB Vx, Vy (R157). -/
  | subReg (x y : Nibble)
  /-- `8XY6` SHR Vx; `y` is ignored (R159). -/
  | shr (x y : Nibble)
  /-- `8XY7` SUBN Vx, Vy (R158). -/
  | subnReg (x y : Nibble)
  /-- `8XYE` SHL Vx; `y` is ignored (R160). -/
  | shl (x y : Nibble)
  /-- `9XY0` SNE Vx, Vy (R136). -/
  | sneReg (x y : Nibble)
  /-- `ANNN` LD I, nnn (R180). -/
  | ldI (nnn : Addr12)
  /-- `BNNN` JP V0, nnn (R137). -/
  | jpV0 (nnn : Addr12)
  /-- `CXNN` RND Vx, nn (R162). -/
  | rnd (x : Nibble) (nn : Byte)
  /-- `DXYN` DRW Vx, Vy, n (R201). -/
  | drw (x y n : Nibble)
  /-- `EX9E` SKP Vx (R220). -/
  | skp (x : Nibble)
  /-- `EXA1` SKNP Vx (R221). -/
  | sknp (x : Nibble)
  /-- `FX07` LD Vx, DT (R224). -/
  | ldVxDt (x : Nibble)
  /-- `FX0A` LD Vx, K (R222). -/
  | ldVxK (x : Nibble)
  /-- `FX15` LD DT, Vx (R225). -/
  | ldDtVx (x : Nibble)
  /-- `FX18` LD ST, Vx (R226). -/
  | ldStVx (x : Nibble)
  /-- `FX1E` ADD I, Vx (R181). -/
  | addI (x : Nibble)
  /-- `FX29` LD F, Vx (R182). -/
  | ldF (x : Nibble)
  /-- `FX33` LD B, Vx (R183). -/
  | ldB (x : Nibble)
  /-- `FX55` LD [I], Vx: dump V0 to Vx (R185). -/
  | ldMemVx (x : Nibble)
  /-- `FX65` LD Vx, [I]: load V0 to Vx (R186). -/
  | ldVxMem (x : Nibble)
  /-- `5XYN` with N not 0: unimplemented (R242). -/
  | unimpl5 (x y n : Nibble)
  /-- `8XYN` with N in 8, 9, A, B, C, D, F: unimplemented (R243). -/
  | unimpl8 (x y n : Nibble)
  /-- `9XYN` with N not 0: unimplemented (R244). -/
  | unimpl9 (x y n : Nibble)
  /-- `EXNN` with NN not 9E or A1: unimplemented (R245). -/
  | unimplE (x : Nibble) (nn : Byte)
  /-- `FXNN` with NN none of the nine selectors of family F: unimplemented (R246). -/
  | unimplF (x : Nibble) (nn : Byte)
deriving DecidableEq, Repr

end Sys2Proof
end

