-- ==== Sys2Proof/WellFormed.lean ====
section
/-! DEFINITION. Which terms of `Instr` are instructions of the CORE (30_encoding.md R106 to R109): the rows that catch
"every other selector" must not hold a selector of a defined row. Every other field is bounded by its type. -/

namespace Sys2Proof

/-- The selectors of family 0 that are recognised: clear and return (R107). -/
def isSelector0 (nn : Byte) : Bool := nn == 0xE0 || nn == 0xEE

/-- The nine selectors of family 8 (R108, R243). -/
def isSelector8 (n : Nibble) : Bool := n.toNat ≤ 7 || n == 0xE

/-- The two selectors of family E (R108, R245). -/
def isSelectorE (nn : Byte) : Bool := nn == 0x9E || nn == 0xA1

/-- The nine selectors of family F (R108, R246). -/
def isSelectorF (nn : Byte) : Bool :=
  nn == 0x07 || nn == 0x0A || nn == 0x15 || nn == 0x18 || nn == 0x1E || nn == 0x29 || nn == 0x33 || nn == 0x55 || nn == 0x65

/-- The check on an instruction: the selector of an unimplemented word belongs to no defined row (R109). -/
def Instr.wellFormed : Instr → Bool
  | .sys nnn => !isSelector0 (nnn.extractLsb' 0 8)
  | .unimpl5 _ _ n => n != 0
  | .unimpl8 _ _ n => !isSelector8 n
  | .unimpl9 _ _ n => n != 0
  | .unimplE _ nn => !isSelectorE nn
  | .unimplF _ nn => !isSelectorF nn
  | .cls _ | .ret _ | .jp _ | .call _ | .seImm _ _ | .sneImm _ _ | .seReg _ _ | .ldImm _ _ | .addImm _ _ => true
  | .ldReg _ _ | .orReg _ _ | .andReg _ _ | .xorReg _ _ | .addReg _ _ | .subReg _ _ | .shr _ _ | .subnReg _ _ => true
  | .shl _ _ | .sneReg _ _ | .ldI _ | .jpV0 _ | .rnd _ _ | .drw _ _ _ | .skp _ | .sknp _ | .ldVxDt _ | .ldVxK _ => true
  | .ldDtVx _ | .ldStVx _ | .addI _ | .ldF _ | .ldB _ | .ldMemVx _ | .ldVxMem _ => true

end Sys2Proof
end

