-- ==== Sys2Proof/Decode.lean ====
section
/-! DEFINITION. The decoder and the encoder (30_encoding.md R100 to R110; 20_memory.md R72). The opcode patterns are the
spec's, from general knowledge (GK1; PRESUMED, log entry 1), and so is the byte order (GK2; PRESUMED, log entry 2). -/

namespace Sys2Proof

/-! ## The fields of a word (R103) -/

/-- `op = w[15:12]`. -/
def fieldOp (w : Word) : Nibble := w.extractLsb' 12 4
/-- `x = w[11:8]`. -/
def fieldX (w : Word) : Nibble := w.extractLsb' 8 4
/-- `y = w[7:4]`. -/
def fieldY (w : Word) : Nibble := w.extractLsb' 4 4
/-- `n = w[3:0]`. -/
def fieldN (w : Word) : Nibble := w.extractLsb' 0 4
/-- `nn = w[7:0]`. -/
def fieldNN (w : Word) : Byte := w.extractLsb' 0 8
/-- `nnn = w[11:0]`. -/
def fieldNNN (w : Word) : Addr12 := w.extractLsb' 0 12

/-- The word of two bytes, the byte at the lower address high (R72, D1). -/
def wordOfBytes (hi lo : Byte) : Word := hi ++ lo

/-- The byte of a word at the lower address: `w[15:8]` (R72). -/
def highByte (w : Word) : Byte := w.extractLsb' 8 8

/-- The byte of a word at the higher address: `w[7:0]` (R72). -/
def lowByte (w : Word) : Byte := w.extractLsb' 0 8

/-! ## Dispatch (R106, R107, R108, R109) -/

/-- Family 0: the selector is `NN`, and `X` is ignored (R107, D13). -/
def decode0 (w : Word) : Instr :=
  if fieldNN w = 0xE0 then .cls (fieldX w)
  else if fieldNN w = 0xEE then .ret (fieldX w)
  else .sys (fieldNNN w)

/-- Family 5: only `N = 0` is defined (R106, R242). -/
def decode5 (w : Word) : Instr :=
  if fieldN w = 0 then .seReg (fieldX w) (fieldY w) else .unimpl5 (fieldX w) (fieldY w) (fieldN w)

/-- Family 8: the selector is `N` (R106, R243). -/
def decode8 (w : Word) : Instr :=
  match fieldN w with
  | 0x0#4 => .ldReg (fieldX w) (fieldY w)
  | 0x1#4 => .orReg (fieldX w) (fieldY w)
  | 0x2#4 => .andReg (fieldX w) (fieldY w)
  | 0x3#4 => .xorReg (fieldX w) (fieldY w)
  | 0x4#4 => .addReg (fieldX w) (fieldY w)
  | 0x5#4 => .subReg (fieldX w) (fieldY w)
  | 0x6#4 => .shr (fieldX w) (fieldY w)
  | 0x7#4 => .subnReg (fieldX w) (fieldY w)
  | 0xE#4 => .shl (fieldX w) (fieldY w)
  | n => .unimpl8 (fieldX w) (fieldY w) n

/-- Family 9: only `N = 0` is defined (R106, R244). -/
def decode9 (w : Word) : Instr :=
  if fieldN w = 0 then .sneReg (fieldX w) (fieldY w) else .unimpl9 (fieldX w) (fieldY w) (fieldN w)

/-- Family E: the selector is `NN` (R106, R245). -/
def decodeE (w : Word) : Instr :=
  match fieldNN w with
  | 0x9E#8 => .skp (fieldX w)
  | 0xA1#8 => .sknp (fieldX w)
  | nn => .unimplE (fieldX w) nn

/-- Family F: the selector is `NN` (R106, R246). -/
def decodeF (w : Word) : Instr :=
  match fieldNN w with
  | 0x07#8 => .ldVxDt (fieldX w)
  | 0x0A#8 => .ldVxK (fieldX w)
  | 0x15#8 => .ldDtVx (fieldX w)
  | 0x18#8 => .ldStVx (fieldX w)
  | 0x1E#8 => .addI (fieldX w)
  | 0x29#8 => .ldF (fieldX w)
  | 0x33#8 => .ldB (fieldX w)
  | 0x55#8 => .ldMemVx (fieldX w)
  | 0x65#8 => .ldVxMem (fieldX w)
  | nn => .unimplF (fieldX w) nn

/-- The decoder is total: every word is exactly one instruction of R108 or R109 (R103, R110). -/
def decodeWord (w : Word) : Instr :=
  match fieldOp w with
  | 0x0#4 => decode0 w
  | 0x1#4 => .jp (fieldNNN w)
  | 0x2#4 => .call (fieldNNN w)
  | 0x3#4 => .seImm (fieldX w) (fieldNN w)
  | 0x4#4 => .sneImm (fieldX w) (fieldNN w)
  | 0x5#4 => decode5 w
  | 0x6#4 => .ldImm (fieldX w) (fieldNN w)
  | 0x7#4 => .addImm (fieldX w) (fieldNN w)
  | 0x8#4 => decode8 w
  | 0x9#4 => decode9 w
  | 0xA#4 => .ldI (fieldNNN w)
  | 0xB#4 => .jpV0 (fieldNNN w)
  | 0xC#4 => .rnd (fieldX w) (fieldNN w)
  | 0xD#4 => .drw (fieldX w) (fieldY w) (fieldN w)
  | 0xE#4 => decodeE w
  | _ => decodeF w

/-- Why bytes are no instruction: an instruction is exactly two bytes (R104, R111), and fewer were given. -/
inductive DecodeError where
  | truncated
deriving DecidableEq, Repr

/-- The decoder on bytes: the instruction and the bytes after it. Two bytes always decode (R110). -/
def decode : List Byte → Except DecodeError (Instr × List Byte)
  | hi :: lo :: rest => .ok (decodeWord (wordOfBytes hi lo), rest)
  | [_] => .error .truncated
  | [] => .error .truncated

/-! ## The encoder (R102, R104, R108) -/

/-- `X` above `NN`: the address view of the byte view (R104). -/
def addrOfXNN (x : Nibble) (nn : Byte) : Addr12 := x ++ nn
/-- `Y` above `N`: the byte view of the nibble view (R104). -/
def byteOfYN (y n : Nibble) : Byte := y ++ n

/-- Form `A`: the family and `NNN` (R104). -/
def wordA (op : Nibble) (nnn : Addr12) : Word := op ++ nnn
/-- Forms `XNN`, `XS` and `S`: the family, `X` and the low byte (R104). -/
def wordXNN (op x : Nibble) (nn : Byte) : Word := wordA op (addrOfXNN x nn)
/-- Form `XYN`: the family, `X`, `Y` and `N` (R104). -/
def wordXYN (op x y n : Nibble) : Word := wordXNN op x (byteOfYN y n)

/-- The word of an instruction, from the patterns of R108 and R109. -/
def encode : Instr → Word
  | .cls x => wordXNN 0x0 x 0xE0
  | .ret x => wordXNN 0x0 x 0xEE
  | .sys nnn => wordA 0x0 nnn
  | .jp nnn => wordA 0x1 nnn
  | .call nnn => wordA 0x2 nnn
  | .seImm x nn => wordXNN 0x3 x nn
  | .sneImm x nn => wordXNN 0x4 x nn
  | .seReg x y => wordXYN 0x5 x y 0x0
  | .ldImm x nn => wordXNN 0x6 x nn
  | .addImm x nn => wordXNN 0x7 x nn
  | .ldReg x y => wordXYN 0x8 x y 0x0
  | .orReg x y => wordXYN 0x8 x y 0x1
  | .andReg x y => wordXYN 0x8 x y 0x2
  | .xorReg x y => wordXYN 0x8 x y 0x3
  | .addReg x y => wordXYN 0x8 x y 0x4
  | .subReg x y => wordXYN 0x8 x y 0x5
  | .shr x y => wordXYN 0x8 x y 0x6
  | .subnReg x y => wordXYN 0x8 x y 0x7
  | .shl x y => wordXYN 0x8 x y 0xE
  | .sneReg x y => wordXYN 0x9 x y 0x0
  | .ldI nnn => wordA 0xA nnn
  | .jpV0 nnn => wordA 0xB nnn
  | .rnd x nn => wordXNN 0xC x nn
  | .drw x y n => wordXYN 0xD x y n
  | .skp x => wordXNN 0xE x 0x9E
  | .sknp x => wordXNN 0xE x 0xA1
  | .ldVxDt x => wordXNN 0xF x 0x07
  | .ldVxK x => wordXNN 0xF x 0x0A
  | .ldDtVx x => wordXNN 0xF x 0x15
  | .ldStVx x => wordXNN 0xF x 0x18
  | .addI x => wordXNN 0xF x 0x1E
  | .ldF x => wordXNN 0xF x 0x29
  | .ldB x => wordXNN 0xF x 0x33
  | .ldMemVx x => wordXNN 0xF x 0x55
  | .ldVxMem x => wordXNN 0xF x 0x65
  | .unimpl5 x y n => wordXYN 0x5 x y n
  | .unimpl8 x y n => wordXYN 0x8 x y n
  | .unimpl9 x y n => wordXYN 0x9 x y n
  | .unimplE x nn => wordXNN 0xE x nn
  | .unimplF x nn => wordXNN 0xF x nn

/-- The bytes of an instruction in memory order (R72). -/
def encodeBytes (i : Instr) : List Byte := [highByte (encode i), lowByte (encode i)]

/-- What the decoder reads from the bytes of a table word, laid out as memory holds them (R72, R104): bit 0 of `w` is the
least significant bit of the one 16-bit word, and the bits above `nbits` are 0. A number too wide for one word is no
instruction. -/
def decodeTableWord (nbits w : Nat) : Option Instr :=
  if w % 2 ^ nbits < 2 ^ 16 then
    match decode [highByte (BitVec.ofNat 16 (w % 2 ^ nbits)), lowByte (BitVec.ofNat 16 (w % 2 ^ nbits))] with
    | .ok (i, _) => some i
    | .error _ => none
  else none

end Sys2Proof
end

