-- ==== Sys2Proof/Config.lean ====
section
/-! DEFINITION. The CORE's parameters (00_scope.md R6), the points this spec decides, and the values it leaves free. -/

namespace Sys2Proof.Config

/-- `MemSize`: 4096 bytes, 0x000 to 0xFFF (R6, R44). -/
abbrev memSize : Nat := 4096

/-- `NumRegs`: V0 to VF (R6, R30). -/
abbrev numRegs : Nat := 16

/-- `IWidth`: the bits of `I` (R6, R35). -/
abbrev iWidth : Nat := 16

/-- `PCWidth`: the bits of `PC` (R6, R36). -/
abbrev pcWidth : Nat := 16

/-- The key latches, one per key code 0x0 to 0xF (R43). -/
abbrev numKeys : Nat := 16

/-- `StackDepth`, the depth the CORE's call pushes with (R6, R38, D20). -/
abbrev stackDepth : Nat := 16

/-- `DisplayW`: the columns of the framebuffer (R6, R41, D9). -/
abbrev displayW : Nat := 64

/-- `DisplayH`: the rows of the framebuffer (R6, R41, D9). -/
abbrev displayH : Nat := 32

/-- The highest address a fetch may start at, 0xFFE (R36, R100). -/
abbrev lastFetch : Nat := 0xFFE

/-- `TimerHz`: the cadence the host keeps (R6, R273). No rule of the machine reads it. -/
abbrev timerHz : Nat := 60

/-- `ProgramBase`: where the ROM lies and where `PC` starts (R6, R71, R291). -/
abbrev programBase : Nat := 0x200

/-- The longest ROM, 3584 bytes (R293, D23). -/
abbrev maxRom : Nat := 3584

/-- `FontBase` (R6, R45). -/
abbrev fontBase : Nat := 0x000

/-- The bytes of a font table: 16 glyphs of 5 bytes (R6, R45). -/
abbrev fontSize : Nat := 80

/-- `InstrHz`: OPEN in the spec, and no rule reads it (R6, R275, D21). Left without a value. -/
opaque instrHz : Nat

/-- The random byte of a cycle whose input the host has not listed: a free draw under no law (R162, D14, U6). Nothing
about its value can be proved. Log entry 4. -/
opaque freeRnd : Nat → Byte

/-- `DrawEdgePolicy` (R203, D7). -/
inductive DrawEdgePolicy where
  | wrap
  | clip
deriving DecidableEq, Repr

/-- The policy this spec decides: `Wrap` (R6, R203, D7). DESIGN CHOICE of the spec; log entry 7. -/
abbrev drawEdgePolicy : DrawEdgePolicy := .wrap

/-- `ReservedPolicy`, for the reserved selectors of families 5, 8, 9, E and F (R240, D12). -/
inductive ReservedPolicy where
  | reportContinue
  | refuse
deriving DecidableEq, Repr

/-- The policy this spec decides: `ReportContinue` (R6, R240, D12). DESIGN CHOICE of the spec; log entry 8. -/
abbrev reservedPolicy : ReservedPolicy := .reportContinue

/-- `FlagOrder`: which write remains when VF is also the destination (D3, U10). -/
inductive FlagOrder where
  | flagLast
  | resultLast
deriving DecidableEq, Repr

/-- The order this spec decides: the flag is written last (R10, R33, D3). DESIGN CHOICE of the spec; log entry 9. -/
abbrev flagOrder : FlagOrder := .flagLast

/-- `FontTable`, the table the CORE boots with: 16 glyphs of 5 bytes. The default of R45, from general knowledge (D10, GK3). PRESUMED; log entry 6. -/
def fontTable : List Byte :=
  [0xF0, 0x90, 0x90, 0x90, 0xF0] ++ [0x20, 0x60, 0x20, 0x20, 0x70] ++
  [0xF0, 0x10, 0xF0, 0x80, 0xF0] ++ [0xF0, 0x10, 0xF0, 0x10, 0xF0] ++
  [0x90, 0x90, 0xF0, 0x10, 0x10] ++ [0xF0, 0x80, 0xF0, 0x10, 0xF0] ++
  [0xF0, 0x80, 0xF0, 0x90, 0xF0] ++ [0xF0, 0x10, 0x20, 0x40, 0x40] ++
  [0xF0, 0x90, 0xF0, 0x90, 0xF0] ++ [0xF0, 0x90, 0xF0, 0x10, 0xF0] ++
  [0xF0, 0x90, 0xF0, 0x90, 0x90] ++ [0xE0, 0x90, 0xE0, 0x90, 0xE0] ++
  [0xF0, 0x80, 0x80, 0x80, 0xF0] ++ [0xE0, 0x90, 0x90, 0x90, 0xE0] ++
  [0xF0, 0x80, 0xF0, 0x80, 0xF0] ++ [0xF0, 0x80, 0xF0, 0x80, 0x80]

end Sys2Proof.Config
end

