-- ==== Sys2Proof/Machine/State.lean ====
section
/-! DEFINITION. The architectural state of the CORE as plain data (10_state.md R30 to R52), the records of its errors
(60_exceptions.md R251), what the host gives a cycle (R50), and the state after reset (R51). -/

namespace Sys2Proof.Machine

/-- The fatal faults of R251, each with its record `(kind, w, a)`. The spec describes their entry (R252): the CORE takes
a NEXT state whose `mode` is `halted (fault f)`, so no step of this model ends in `Outcome.fault`. -/
inductive Fault where
  /-- Code 1. Raised by RET with `SP = 0` (R39, R130, R253). Safe: the run is over and halted is final; the state beside
  the record is unsafe to read (log entry 10). -/
  | stackUnderflow (w a : Word)
  /-- Code 2. Raised by CALL with `SP = StackDepth` (R39, R132, R253). Safe, as `stackUnderflow`. -/
  | stackOverflow (w a : Word)
  /-- Code 3. Raised by a fetch with `PC > 0xFFE` (R100); it has no instruction word. Safe, as `stackUnderflow`. -/
  | fetchOutOfBounds (a : Word)
  /-- Code 4. Raised by DRW, FX33, FX55 and FX65 when the last byte address exceeds 0xFFF (R76). Safe, as
  `stackUnderflow`. -/
  | memoryOutOfBounds (w a : Word)
  /-- Code 5. Raised by SKP and SKNP with `V[x] > 0xF` (R220, R221, R255). Safe, as `stackUnderflow`. -/
  | keyIndexOutOfBounds (w a : Word)
deriving DecidableEq, Repr

/-- Why the model gives no next state. -/
inductive Refusal where
  /-- An instruction that has no meaning yet; only `exec`'s refused arms answer it, and there is none left. Safe. -/
  | notModelled (mnemonic : String)
  /-- A word of R242 to R246 under `ReservedPolicy = Refuse`, the choice this spec does not take (R240, D12); no step
  under the decided policy answers it. Safe. -/
  | reservedWord (w a : Word)
  /-- The ROM load, with more bytes than fit from 0x200 (R293, D23, U13); no step answers it. Safe. -/
  | romTooLong (length : Nat)
deriving DecidableEq, Repr

/-- Why a run is over (R47). -/
inductive HaltReason where
  | quit
  | fault (f : Fault)
deriving DecidableEq, Repr

/-- `Mode`: the scheduler state (R47). -/
inductive Mode where
  /-- One instruction is fetched and executed per cycle. -/
  | running
  /-- FX0A waits; `x` names the register that receives the key code. -/
  | awaitingKey (x : Nibble)
  /-- The run is over, for ever (R258). -/
  | halted (r : HaltReason)
deriving DecidableEq, Repr

/-- The one diagnostic kind, code 16 (R48, R251, R256). -/
inductive DiagKind where
  | unimplemented
deriving DecidableEq, Repr

/-- An entry `(kind, w, a)` of the diagnostic log (R48). -/
structure DiagEntry where
  kind : DiagKind
  w    : Word
  a    : Word
deriving DecidableEq, Repr

/-- A host event (R50, R271, R274). -/
inductive Event where
  | press (k : Nibble)
  | release (k : Nibble)
  | quit
deriving DecidableEq, Repr

/-- What the host gives one scheduler cycle (R50, R270): `Cycle(events, timer_due, rnd)`. -/
structure CycleInput where
  events   : List Event
  timerDue : Bool
  rnd      : Byte
deriving DecidableEq, Repr

/-- Memory as a list of (address, byte) pairs in canonical form; what an unlisted address reads as is
`Memory.background`, the contents at reset (R44, R51). -/
abbrev Memory := List Host.Cell

/-- `FB[c][r]`: 64 columns of 32 rows of pixels (R41). -/
abbrev FrameBuffer := Vector (Vector Bool Config.displayH) Config.displayW

/-- The state of the CORE: `(Mem, V, I, PC, S, SP, DT, ST, FB, K, Mode, Diag)` (10_state.md), and the host's inputs for
the cycles to come. -/
structure State where
  /-- `Mem` (R44). -/
  mem    : Memory
  /-- `V[0]` to `V[15]` (R30). -/
  v      : Vector Byte Config.numRegs
  /-- `I` (R35). -/
  i      : BitVec Config.iWidth
  /-- `PC` (R36). -/
  pc     : BitVec Config.pcWidth
  /-- `S` and `SP` (R38): the entries `S[SP-1]` down to `S[0]`, the top of the stack first. Entries at and above `SP`
  hold no value and so are not there; `SP` is the length. -/
  stack  : List Word
  /-- `DT` (R40). -/
  dt     : Byte
  /-- `ST` (R40). -/
  st     : Byte
  /-- `FB` (R41). -/
  fb     : FrameBuffer
  /-- `K[0]` to `K[15]` (R43). -/
  k      : Vector Bool Config.numKeys
  /-- `Mode` (R47). -/
  mode   : Mode
  /-- `Diag`, oldest entry first (R48). -/
  diag   : List DiagEntry
  /-- The MODEL's own field: the host's inputs for this cycle and the ones after it (R50, R270). Log entry 3. -/
  inputs : List CycleInput
  /-- The MODEL's own field: how many cycles have run, the argument of the free random byte. Log entry 4. -/
  cycle  : Nat
deriving DecidableEq, Repr

/-- `FB` all clear (R51, R200). -/
def FrameBuffer.clear : FrameBuffer := Vector.replicate Config.displayW (Vector.replicate Config.displayH false)

/-- The state after initialisation, before the ROM is loaded (R51, R290, R291). Memory lists nothing: it reads as the
font at 0x000 to 0x04F and zero above. -/
def State.reset : State where
  mem    := []
  v      := Vector.replicate Config.numRegs 0
  i      := 0
  pc     := BitVec.ofNat 16 Config.programBase
  stack  := []
  dt     := 0
  st     := 0
  fb     := FrameBuffer.clear
  k      := Vector.replicate Config.numKeys false
  mode   := .running
  diag   := []
  inputs := []
  cycle  := 0

/-- What the host sees between two cycles (R50, R206, R263): the framebuffer, the sound timer, the mode with its halt
record, and the diagnostic log. -/
structure HostView where
  fb   : FrameBuffer
  st   : Byte
  mode : Mode
  diag : List DiagEntry
deriving DecidableEq, Repr

end Sys2Proof.Machine
end

