-- ==== Sys2Proof/Machine/Operands.lean ====
section
/-! DEFINITION. The operand forms of the CORE: registers, immediates, the I-relative address range, the key latches and the
placing of pixels (30_encoding.md R105; 20_memory.md R76; 43_display.md R203). -/

namespace Sys2Proof.Machine

/-! ## General registers (R30) -/

/-- `V[x]`. -/
def State.reg (s : State) (x : Nibble) : Byte := s.v[x.toNat]'x.isLt

/-- `V[x] <- b`. No register is hard-wired (R30). -/
def State.setReg (x : Nibble) (b : Byte) (s : State) : State := { s with v := s.v.set x.toNat b x.isLt }

/-- `V[0xF]`, VF (R32). -/
def vf : Nibble := 0xF

/-! ## Immediates (R105) -/

/-- `zext_16(nnn)`. -/
def zextAddr (nnn : Addr12) : Word := nnn.setWidth 16

/-- `zext_16` of a byte, for the sums with `V[0]` and `V[x]` (R137, R181). -/
def zextByte (b : Byte) : Word := b.setWidth 16

/-! ## I-relative addresses (R76) -/

/-- `I[11:0]`, the first byte address of an access through `I`. -/
def State.iBase (s : State) : Nat := s.i.toNat % Config.memSize

/-- `CheckRange(count)`, `count` at least 1: the last byte address is at most 0xFFF (R76, D6). -/
def inRange (base count : Nat) : Bool := base + count ≤ Config.memSize

/-! ## Key latches (R43, R220) -/

/-- `K[k]`. -/
def State.key (s : State) (k : Nibble) : Bool := s.k[k.toNat]'k.isLt

/-- `K[k] <- b`. -/
def State.setKey (k : Nibble) (b : Bool) (s : State) : State := { s with k := s.k.set k.toNat b k.isLt }

/-- The key code a register holds: none when the value exceeds 0xF (R220, R255, D11). -/
def keyCode (b : Byte) : Option Nibble := if b.toNat < Config.numKeys then some (b.setWidth 4) else none

/-! ## Pixels (R41, R203) -/

/-- `FB[c][r]`. -/
def FrameBuffer.pixel (fb : FrameBuffer) (c : Fin Config.displayW) (r : Fin Config.displayH) : Bool := fb[c][r]

/-- `FB[c][r] <- not FB[c][r]`. -/
def FrameBuffer.flip (fb : FrameBuffer) (c : Fin Config.displayW) (r : Fin Config.displayH) : FrameBuffer :=
  fb.set c (fb[c].set r (!fb[c][r]))

/-- `Place(cx, cy)`: the cell of a sprite pixel under an edge policy, none where it is dropped (R203, D7). -/
def place (p : Config.DrawEdgePolicy) (cx cy : Nat) : Option (Fin Config.displayW × Fin Config.displayH) :=
  match p with
  | .wrap => some (Fin.ofNat Config.displayW cx, Fin.ofNat Config.displayH cy)
  | .clip =>
    if cx < Config.displayW ∧ cy < Config.displayH then
      some (Fin.ofNat Config.displayW cx, Fin.ofNat Config.displayH cy)
    else none

/-- The pixel of a sprite row at column `c` of 0 to 7: bit 7 is the leftmost (R202, D8). -/
def spriteBit (row : Byte) (c : Nat) : Bool := row.getLsbD (7 - c)

end Sys2Proof.Machine
end

