-- ==== Sys2Proof/Machine/Flags.lean ====
section
/-! DEFINITION. Every flag computation of the CORE (10_state.md R33; 41_alu.md R156 to R161; 43_display.md R204) and the write
of a result together with its flag. Each flag is 0 or 1 and is computed from the values before the instruction (R10). -/

namespace Sys2Proof.Machine

/-- A flag as the byte VF receives: 0 or 1 (R33, R161). -/
def flagByte (f : Bool) : Byte := if f then 1 else 0

/-- Carry of `8XY4`: the unmasked sum exceeds 255 (R156). -/
def carryFlag (a b : Byte) : Bool := a.toNat + b.toNat > 255

/-- No borrow of `a - b`: `a >= b` before the write (R157, R158). -/
def noBorrowFlag (a b : Byte) : Bool := a.toNat ≥ b.toNat

/-- The bit a right shift moves out: bit 0 (R159). -/
def shiftedOutRight (a : Byte) : Bool := a.getLsbD 0

/-- The bit a left shift moves out: bit 7 (R160). -/
def shiftedOutLeft (a : Byte) : Bool := a.getLsbD 7

/-- Writes a result to `V[x]` and its flag to VF; with `X = F` the later write remains (R10, R33, D3). -/
def writeResultFlag (o : Config.FlagOrder) (x : Nibble) (r : Byte) (f : Bool) (s : State) : State :=
  match o with
  | .flagLast => (s.setReg x r).setReg vf (flagByte f)
  | .resultLast => (s.setReg vf (flagByte f)).setReg x r

end Sys2Proof.Machine
end

