-- ==== Sys2Proof/Machine/Ops.lean ====
section
/-! DEFINITION. The shared operations of the CORE: memory, the call stack, control transfer, the block accesses through `I`,
the blit engine, the diagnostic log, and the taking of a fatal fault. The CORE has no handler and no return from a fault
(60_exceptions.md R250, R259). -/

namespace Sys2Proof.Machine

/-! ## Memory (20_memory.md R70 to R79) -/

/-- The contents of an address after initialisation with a font table: the table from 0x000 up and zero above (R45, R51,
R71). -/
def initialByte (font : List Byte) (a : Nat) : Byte := font.getD (a - Config.fontBase) 0

/-- What an unlisted address reads as: the contents at reset with the CORE's own table (R51). -/
def Memory.background (a : Nat) : Byte := initialByte Config.fontTable a

/-- The byte at an address. -/
def Memory.read : Memory → Nat → Byte
  | [], a => Memory.background a
  | (b, v) :: m, a => if a = b then v else Memory.read m a

/-- The cell of an address in canonical form: nothing where the byte is what an unlisted address reads as. -/
def Memory.cell (a : Nat) (v : Byte) : Memory := if v = Memory.background a then [] else [(a, v)]

/-- The memory with the byte at an address replaced, in canonical form. -/
def Memory.write : Memory → Nat → Byte → Memory
  | [], a, v => Memory.cell a v
  | (b, w) :: m, a, v =>
    if a < b then Memory.cell a v ++ (b, w) :: m
    else if a = b then Memory.cell a v ++ m
    else (b, w) :: Memory.write m a v

/-- The canonical form: addresses strictly rising and inside the address space, and no entry equal to what an unlisted
address reads as. -/
abbrev Memory.wf (m : Memory) : Prop :=
  m.Pairwise (fun c d => c.1 < d.1) ∧ ∀ c ∈ m, c.1 < Config.memSize ∧ c.2 ≠ Memory.background c.1

/-- The memory with the bytes stored at `base`, `base + 1`, …, in that order (R80). -/
def Memory.writeBytes (m : Memory) (base : Nat) : List Byte → Memory
  | [] => m
  | b :: bs => Memory.writeBytes (m.write base b) (base + 1) bs

/-- `MemRead(addr, 1)`: the byte at an address of the CORE, none outside the address space (R73). -/
def State.memRead (addr : Nat) (s : State) : Option Byte :=
  if addr < Config.memSize then some (s.mem.read addr) else none

/-- `MemWrite(addr, 1, v)`: every address is writable (R74, R79, D26); none outside the address space. -/
def State.memWrite (addr : Nat) (b : Byte) (s : State) : Option State :=
  if addr < Config.memSize then some { s with mem := s.mem.write addr b } else none

/-- One-byte reads at `addr`, `addr + 1`, …, `n` of them, in that order (R75, R80). -/
def State.memReads (addr : Nat) : Nat → State → Option (List Byte)
  | 0, _ => some []
  | n + 1, s => (s.memRead addr).bind fun b => (State.memReads (addr + 1) n s).map fun bs => b :: bs

/-- One-byte writes at `addr`, `addr + 1`, …, in that order (R75, R80). -/
def State.memWrites (addr : Nat) : List Byte → State → Option State
  | [], s => some s
  | b :: bs, s => (s.memWrite addr b).bind fun t => State.memWrites (addr + 1) bs t

/-- The bytes of a read through `I`; none when `CheckRange` fails, and then no byte is read (R76). -/
def State.loadRange (count : Nat) (s : State) : Option (List Byte) :=
  if inRange s.iBase count then s.memReads s.iBase count else none

/-- The state with bytes stored at `I[11:0]` and up; none when `CheckRange` fails, and then no byte is written (R76). -/
def State.storeRange (bs : List Byte) (s : State) : Option State :=
  if inRange s.iBase bs.length then s.memWrites s.iBase bs else none

/-! ## The program counter (R36, R101, R138) -/

/-- `pc <- target`. -/
def State.setPc (target : Word) (s : State) : State := { s with pc := target }

/-- `PC <- a + 2`, right after the fetch (R101, D2). -/
def State.advance (s : State) : State := s.setPc (s.pc + 2)

/-- `pc <- a + 4` when the condition of a skip holds, `a + 2` otherwise (R101, R133); `s` holds `PC = a`. -/
def State.skipIf (c : Bool) (s : State) : State := if c then s.setPc (s.pc + 4) else s.advance

/-! ## The call stack (R38, R39) -/

/-- `SP`, the current depth. -/
def State.sp (s : State) : Nat := s.stack.length

/-- `S[n]`: none at and above `SP`, where an entry holds no value. -/
def State.entry (s : State) (n : Nat) : Option Word := s.stack.reverse[n]?

/-- `Push(v)` on a stack of at most `depth` entries: none when it is full (R39, D20). -/
def State.push (depth : Nat) (v : Word) (s : State) : Option State :=
  if s.sp < depth then some { s with stack := v :: s.stack } else none

/-- `Pop()`: none when the stack is empty (R39). -/
def State.pop (s : State) : Option (Word × State) :=
  match s.stack with
  | [] => none
  | v :: rest => some (v, { s with stack := rest })

/-! ## Index register, timers, mode -/

/-- `I <- v`. -/
def State.setI (v : Word) (s : State) : State := { s with i := v }

/-- `DT <- v`. -/
def State.setDt (v : Byte) (s : State) : State := { s with dt := v }

/-- `ST <- v`. -/
def State.setSt (v : Byte) (s : State) : State := { s with st := v }

/-- `Mode <- m`. -/
def State.setMode (m : Mode) (s : State) : State := { s with mode := m }

/-- `FB <- fb`. -/
def State.setFb (fb : FrameBuffer) (s : State) : State := { s with fb := fb }

/-! ## Errors (60_exceptions.md R250 to R257) -/

/-- The numeric codes of R251; labels only (D29). -/
def Fault.code : Fault → Nat
  | .stackUnderflow _ _ => 1
  | .stackOverflow _ _ => 2
  | .fetchOutOfBounds _ => 3
  | .memoryOutOfBounds _ _ => 4
  | .keyIndexOutOfBounds _ _ => 5

/-- The instruction word of a fault record; a fetch fault has none (R251). -/
def Fault.word : Fault → Option Word
  | .stackUnderflow w _ => some w
  | .stackOverflow w _ => some w
  | .fetchOutOfBounds _ => none
  | .memoryOutOfBounds w _ => some w
  | .keyIndexOutOfBounds w _ => some w

/-- The address of a fault record (R251). -/
def Fault.addr : Fault → Word
  | .stackUnderflow _ a => a
  | .stackOverflow _ a => a
  | .fetchOutOfBounds a => a
  | .memoryOutOfBounds _ a => a
  | .keyIndexOutOfBounds _ a => a

/-- The numeric code of a diagnostic (R251). -/
def DiagKind.code : DiagKind → Nat
  | .unimplemented => 16

/-- Taking a fatal fault (R252): `s` is the state before the fetch, the instruction has no effect, and the mode records
the fault. No claim may read the architectural state beside the record (D18, U1; log entry 10). -/
def State.raiseFault (f : Fault) (s : State) : State := s.setMode (.halted (.fault f))

/-- `Report(kind)`: appends to the log and changes nothing else (R256, D22). -/
def State.report (kind : DiagKind) (w a : Word) (s : State) : State := { s with diag := s.diag ++ [⟨kind, w, a⟩] }

/-- A step that ends in a next state: the instruction's effect, or the fatal fault when a check before its first write
fails (R252). -/
def orFault (f : Fault) (s : State) : Option State → Host.Outcome State Fault Refusal
  | some t => .next t
  | none => .next (s.raiseFault f)

/-- The effect of an unimplemented word `w` at `a = PC` (R240): under `ReportContinue` a diagnostic and `PC = a + 2`,
under `Refuse` a refusal. -/
def unimplementedWord (p : Config.ReservedPolicy) (w : Word) (s : State) : Host.Outcome State Fault Refusal :=
  match p with
  | .reportContinue => .next (s.advance.report .unimplemented w s.pc)
  | .refuse => .refused (.reservedWord w s.pc)

/-! ## Register blocks (R185, R186) -/

/-- `V[0]` to `V[x]`, inclusive. -/
def State.regsTo (x : Nibble) (s : State) : List Byte := s.v.toList.take (x.toNat + 1)

/-- `V[n] <- ` the first byte, `V[n + 1] <- ` the next, and so on. -/
def State.loadRegs (n : Nat) : List Byte → State → State
  | [], s => s
  | b :: bs, s => State.loadRegs (n + 1) bs (s.setReg (BitVec.ofNat 4 n) b)

/-! ## Decimal digits (R183) -/

/-- The hundreds, tens and ones digit of a byte. -/
def bcdDigits (b : Byte) : List Byte :=
  [BitVec.ofNat 8 (b.toNat / 100), BitVec.ofNat 8 (b.toNat / 10 % 10), BitVec.ofNat 8 (b.toNat % 10)]

/-! ## The blit engine (R201 to R204) -/

/-- One set sprite pixel at `(cx, cy)`: flips its cell and notes a collision when the cell was set (R201, R204). -/
def blitPixel (p : Config.DrawEdgePolicy) (cx cy : Nat) (a : FrameBuffer × Bool) : FrameBuffer × Bool :=
  match place p cx cy with
  | some (c, r) => (a.1.flip c r, a.2 || a.1.pixel c r)
  | none => a

/-- One sprite row at row `cy`, columns from left to right (R202). -/
def blitRow (p : Config.DrawEdgePolicy) (x0 cy : Nat) (row : Byte) (a : FrameBuffer × Bool) : FrameBuffer × Bool :=
  (List.range 8).foldl (fun a c => if spriteBit row c then blitPixel p (x0 + c) cy a else a) a

/-- The rows of a sprite from `cy` down (R201). -/
def blit (p : Config.DrawEdgePolicy) (x0 cy : Nat) : List Byte → FrameBuffer × Bool → FrameBuffer × Bool
  | [], a => a
  | row :: rows, a => blit p x0 (cy + 1) rows (blitRow p x0 cy row a)

/-! ## The host's input (R50) -/

/-- The input of this cycle. Where the host has listed none: no events, no timer tick, and a free random byte (log
entries 3 and 4). -/
def State.currentInput (s : State) : CycleInput :=
  s.inputs.headD { events := [], timerDue := false, rnd := Config.freeRnd s.cycle }

/-- What the host sees between cycles (R50). -/
def State.hostView (s : State) : HostView := { fb := s.fb, st := s.st, mode := s.mode, diag := s.diag }

end Sys2Proof.Machine
end

