-- ==== Sys2Proof/Machine/Alu.lean ====
section
/-! DEFINITION. Loads, logic, addition, subtraction, shifts and the random byte (41_alu.md R150 to R162). No instruction here
can fault, and each leaves `PC = a + 2`. -/

namespace Sys2Proof.Machine

/-- `V[x] <- nn` (R150). -/
def execLdImm (x : Nibble) (nn : Byte) (s : State) : Host.Outcome State Fault Refusal :=
  .next (s.advance.setReg x nn)

/-- `V[x] <- (V[x] + nn) mod 256`, no flag (R151). -/
def execAddImm (x : Nibble) (nn : Byte) (s : State) : Host.Outcome State Fault Refusal :=
  .next (s.advance.setReg x (s.reg x + nn))

/-- `V[x] <- V[y]` (R152). -/
def execLdReg (x y : Nibble) (s : State) : Host.Outcome State Fault Refusal :=
  .next (s.advance.setReg x (s.reg y))

/-- `V[x] <- V[x] OR V[y]`, VF unaffected (R153). -/
def execOrReg (x y : Nibble) (s : State) : Host.Outcome State Fault Refusal :=
  .next (s.advance.setReg x (s.reg x ||| s.reg y))

/-- `V[x] <- V[x] AND V[y]`, VF unaffected (R154). -/
def execAndReg (x y : Nibble) (s : State) : Host.Outcome State Fault Refusal :=
  .next (s.advance.setReg x (s.reg x &&& s.reg y))

/-- `V[x] <- V[x] XOR V[y]`, VF unaffected (R155). -/
def execXorReg (x y : Nibble) (s : State) : Host.Outcome State Fault Refusal :=
  .next (s.advance.setReg x (s.reg x ^^^ s.reg y))

/-- `V[x] <- (V[x] + V[y]) mod 256`, VF the carry (R156). -/
def execAddReg (x y : Nibble) (s : State) : Host.Outcome State Fault Refusal :=
  .next (writeResultFlag Config.flagOrder x (s.reg x + s.reg y) (carryFlag (s.reg x) (s.reg y)) s.advance)

/-- `V[x] <- (V[x] - V[y]) mod 256`, VF no borrow (R157). -/
def execSubReg (x y : Nibble) (s : State) : Host.Outcome State Fault Refusal :=
  .next (writeResultFlag Config.flagOrder x (s.reg x - s.reg y) (noBorrowFlag (s.reg x) (s.reg y)) s.advance)

/-- `V[x] <- (V[y] - V[x]) mod 256`, VF no borrow (R158). -/
def execSubnReg (x y : Nibble) (s : State) : Host.Outcome State Fault Refusal :=
  .next (writeResultFlag Config.flagOrder x (s.reg y - s.reg x) (noBorrowFlag (s.reg y) (s.reg x)) s.advance)

/-- `V[x] <- V[x] div 2`, VF the bit shifted out; `y` is ignored (R159). -/
def execShr (x _y : Nibble) (s : State) : Host.Outcome State Fault Refusal :=
  .next (writeResultFlag Config.flagOrder x (s.reg x >>> 1) (shiftedOutRight (s.reg x)) s.advance)

/-- `V[x] <- (V[x] * 2) mod 256`, VF the bit shifted out; `y` is ignored (R160). -/
def execShl (x _y : Nibble) (s : State) : Host.Outcome State Fault Refusal :=
  .next (writeResultFlag Config.flagOrder x (s.reg x <<< 1) (shiftedOutLeft (s.reg x)) s.advance)

/-- `V[x] <- rnd AND nn`, with the random byte of this cycle (R162, D14). -/
def execRnd (x : Nibble) (nn : Byte) (s : State) : Host.Outcome State Fault Refusal :=
  .next (s.advance.setReg x (s.currentInput.rnd &&& nn))

end Sys2Proof.Machine
end

