-- ==== Sys2Proof/Machine/ControlFlow.lean ====
section
/-! DEFINITION. Return, jump, call, skips and jump-with-offset (40_control_flow.md R130 to R138). Every meaning starts at the
state before the fetch's advance, with `PC = a`. -/

namespace Sys2Proof.Machine

/-- `pc <- Pop()` (R130). -/
def execRet (x : Nibble) (s : State) : Host.Outcome State Fault Refusal :=
  orFault (.stackUnderflow (encode (.ret x)) s.pc) s (s.pop.map fun p => p.2.setPc p.1)

/-- `pc <- zext_16(nnn)` (R131). -/
def execJp (nnn : Addr12) (s : State) : Host.Outcome State Fault Refusal :=
  .next (s.setPc (zextAddr nnn))

/-- `Push(a + 2); pc <- zext_16(nnn)` (R132). -/
def execCall (nnn : Addr12) (s : State) : Host.Outcome State Fault Refusal :=
  orFault (.stackOverflow (encode (.call nnn)) s.pc) s
    ((s.push Config.stackDepth s.advance.pc).map fun t => t.setPc (zextAddr nnn))

/-- Skip when `V[x] = nn` (R133). -/
def execSeImm (x : Nibble) (nn : Byte) (s : State) : Host.Outcome State Fault Refusal :=
  .next (s.skipIf (s.reg x == nn))

/-- Skip when `V[x] != nn` (R134). -/
def execSneImm (x : Nibble) (nn : Byte) (s : State) : Host.Outcome State Fault Refusal :=
  .next (s.skipIf (s.reg x != nn))

/-- Skip when `V[x] = V[y]` (R135). -/
def execSeReg (x y : Nibble) (s : State) : Host.Outcome State Fault Refusal :=
  .next (s.skipIf (s.reg x == s.reg y))

/-- Skip when `V[x] != V[y]` (R136). -/
def execSneReg (x y : Nibble) (s : State) : Host.Outcome State Fault Refusal :=
  .next (s.skipIf (s.reg x != s.reg y))

/-- `pc <- zext_16(nnn) + V[0]`, not reduced (R137, D5). -/
def execJpV0 (nnn : Addr12) (s : State) : Host.Outcome State Fault Refusal :=
  .next (s.setPc (zextAddr nnn + zextByte (s.reg 0)))

end Sys2Proof.Machine
end

