-- ==== Sys2Proof/Machine/Display.lean ====
section
/-! DEFINITION. Clear-screen and draw (43_display.md R200 to R206). -/

namespace Sys2Proof.Machine

/-- `FB` all clear; VF is not touched, and `x` is ignored (R200). -/
def execCls (_x : Nibble) (s : State) : Host.Outcome State Fault Refusal :=
  .next (s.advance.setFb FrameBuffer.clear)

/-- The draw of the sprite bytes `rows` at `(V[x], V[y])`, VF the collision, written last (R201, R204). -/
def State.draw (p : Config.DrawEdgePolicy) (x y : Nibble) (rows : List Byte) (s : State) : State :=
  let a := blit p (s.reg x).toNat (s.reg y).toNat rows (s.fb, false)
  (s.setFb a.1).setReg vf (flagByte a.2)

/-- Draws `n` sprite bytes from `I`; with `n = 0` no memory is read and no check is made (R201). -/
def execDrw (x y n : Nibble) (s : State) : Host.Outcome State Fault Refusal :=
  orFault (.memoryOutOfBounds (encode (.drw x y n)) s.pc) s
    ((s.loadRange n.toNat).map fun rows => s.advance.draw Config.drawEdgePolicy x y rows)

end Sys2Proof.Machine
end

