-- ==== Sys2Proof/Machine/IndexMemory.lean ====
section
/-! DEFINITION. The index register and the memory block instructions (42_index_memory.md R180 to R186). An access through `I`
is checked whole before any byte moves, and `I` is unchanged by the block instructions (R184). -/

namespace Sys2Proof.Machine

/-- `I <- zext_16(nnn)` (R180). -/
def execLdI (nnn : Addr12) (s : State) : Host.Outcome State Fault Refusal :=
  .next (s.advance.setI (zextAddr nnn))

/-- `I <- (I + V[x]) mod 4096`, VF not touched (R181). -/
def execAddI (x : Nibble) (s : State) : Host.Outcome State Fault Refusal :=
  .next (s.advance.setI (BitVec.ofNat 16 ((s.i.toNat + (s.reg x).toNat) % Config.memSize)))

/-- `I <- V[x] * 5`, not masked to a digit (R182). -/
def execLdF (x : Nibble) (s : State) : Host.Outcome State Fault Refusal :=
  .next (s.advance.setI (BitVec.ofNat 16 ((s.reg x).toNat * 5)))

/-- Stores the three decimal digits of `V[x]` at `I` (R183). -/
def execLdB (x : Nibble) (s : State) : Host.Outcome State Fault Refusal :=
  orFault (.memoryOutOfBounds (encode (.ldB x)) s.pc) s (s.advance.storeRange (bcdDigits (s.reg x)))

/-- Stores `V[0]` to `V[x]`, inclusive, at `I` (R185). -/
def execLdMemVx (x : Nibble) (s : State) : Host.Outcome State Fault Refusal :=
  orFault (.memoryOutOfBounds (encode (.ldMemVx x)) s.pc) s (s.advance.storeRange (s.regsTo x))

/-- Loads `V[0]` to `V[x]`, inclusive, from `I` (R186). -/
def execLdVxMem (x : Nibble) (s : State) : Host.Outcome State Fault Refusal :=
  orFault (.memoryOutOfBounds (encode (.ldVxMem x)) s.pc) s
    ((s.loadRange (x.toNat + 1)).map fun bs => s.advance.loadRegs 0 bs)

end Sys2Proof.Machine
end

