-- ==== Sys2Proof/Machine/InputTimers.lean ====
section
/-! DEFINITION. Key skips, wait-for-key and the timer moves (44_input_timers.md R220 to R226). -/

namespace Sys2Proof.Machine

/-- Skip when the key `V[x]` is pressed; a value above 0xF faults (R220, D11). -/
def execSkp (x : Nibble) (s : State) : Host.Outcome State Fault Refusal :=
  orFault (.keyIndexOutOfBounds (encode (.skp x)) s.pc) s ((keyCode (s.reg x)).map fun k => s.skipIf (s.key k))

/-- Skip when the key `V[x]` is not pressed; a value above 0xF faults (R221, D11). -/
def execSknp (x : Nibble) (s : State) : Host.Outcome State Fault Refusal :=
  orFault (.keyIndexOutOfBounds (encode (.sknp x)) s.pc) s ((keyCode (s.reg x)).map fun k => s.skipIf (!s.key k))

/-- `Mode <- AwaitingKey(x)` with `PC = a + 2`; `V[x]` is written at the resume (R222, D31). -/
def execLdVxK (x : Nibble) (s : State) : Host.Outcome State Fault Refusal :=
  .next (s.advance.setMode (.awaitingKey x))

/-- `V[x] <- DT` (R224). -/
def execLdVxDt (x : Nibble) (s : State) : Host.Outcome State Fault Refusal :=
  .next (s.advance.setReg x s.dt)

/-- `DT <- V[x]` (R225). -/
def execLdDtVx (x : Nibble) (s : State) : Host.Outcome State Fault Refusal :=
  .next (s.advance.setDt (s.reg x))

/-- `ST <- V[x]` (R226). -/
def execLdStVx (x : Nibble) (s : State) : Host.Outcome State Fault Refusal :=
  .next (s.advance.setSt (s.reg x))

end Sys2Proof.Machine
end

