-- ==== Sys2Proof/Machine/Unimplemented.lean ====
section
/-! DEFINITION. The unimplemented words (45_unimplemented.md R240 to R246): reported, with `PC = a + 2`. -/

namespace Sys2Proof.Machine

/-- Family 0: reported whatever `ReservedPolicy` says (R241). -/
def execSys (nnn : Addr12) (s : State) : Host.Outcome State Fault Refusal :=
  unimplementedWord .reportContinue (encode (.sys nnn)) s

/-- Family 5 with `N` not 0 (R242). -/
def execUnimpl5 (x y n : Nibble) (s : State) : Host.Outcome State Fault Refusal :=
  unimplementedWord Config.reservedPolicy (encode (.unimpl5 x y n)) s

/-- Family 8 with no defined selector (R243). -/
def execUnimpl8 (x y n : Nibble) (s : State) : Host.Outcome State Fault Refusal :=
  unimplementedWord Config.reservedPolicy (encode (.unimpl8 x y n)) s

/-- Family 9 with `N` not 0 (R244). -/
def execUnimpl9 (x y n : Nibble) (s : State) : Host.Outcome State Fault Refusal :=
  unimplementedWord Config.reservedPolicy (encode (.unimpl9 x y n)) s

/-- Family E with no defined selector; `V[x]` is not read (R245). -/
def execUnimplE (x : Nibble) (nn : Byte) (s : State) : Host.Outcome State Fault Refusal :=
  unimplementedWord Config.reservedPolicy (encode (.unimplE x nn)) s

/-- Family F with no defined selector; no memory is touched (R246). -/
def execUnimplF (x : Nibble) (nn : Byte) (s : State) : Host.Outcome State Fault Refusal :=
  unimplementedWord Config.reservedPolicy (encode (.unimplF x nn)) s

end Sys2Proof.Machine
end

