-- ==== Sys2Proof/Machine/Scheduler.lean ====
section
/-! DEFINITION. The scheduler cycle: input, then at most one instruction, then at most one timer decrement (60_exceptions.md
R270 to R275; 30_encoding.md R100), and the ROM load (70_reset_and_hazards.md R292, R293). -/

namespace Sys2Proof.Machine

/-! ## Input phase (R271, R274, R223) -/

/-- `Press(k)`: sets the latch; a transition from released to pressed resumes a wait and stores the key code (R223). -/
def State.press (k : Nibble) (s : State) : State :=
  match s.mode with
  | .awaitingKey x => if s.key k then s.setKey k true else ((s.setReg x (k.setWidth 8)).setMode .running).setKey k true
  | _ => s.setKey k true

/-- `Release(k)`: clears the latch (R271). -/
def State.release (k : Nibble) (s : State) : State := s.setKey k false

/-- The events of a cycle in list order; `Quit` ends the run and the events after it are discarded (R270, R274). -/
def State.applyEvents : List Event → State → State
  | [], s => s
  | .press k :: es, s => State.applyEvents es (s.press k)
  | .release k :: es, s => State.applyEvents es (s.release k)
  | .quit :: _, s => s.setMode (.halted .quit)

/-! ## Execute phase (R100, R101, R252) -/

/-- The word at `PC`, high byte first; none when `PC > 0xFFE`, and then no byte is read (R72, R100). -/
def State.fetch (s : State) : Option Word :=
  if s.pc.toNat ≤ Config.lastFetch then
    (s.memRead s.pc.toNat).bind fun hi => (s.memRead (s.pc.toNat + 1)).map fun lo => wordOfBytes hi lo
  else none

/-- Fetch, decode and execute when `Mode = Running`; nothing otherwise. A fetch out of bounds is a fatal fault without a
word (R100, R252). -/
def executePhase (s : State) : Host.Outcome State Fault Refusal :=
  match s.mode with
  | .running =>
    match s.fetch with
    | some w => exec (decodeWord w) s
    | none => .next (s.raiseFault (.fetchOutOfBounds s.pc))
  | .awaitingKey _ => .next s
  | .halted _ => .next s

/-! ## Timer phase (R272) -/

/-- One less, floored at zero (R272). -/
def tick (b : Byte) : Byte := if b = 0 then 0 else b - 1

/-- Decrements both timers when a tick is due, unless the cycle has halted (R257, R270, R272). -/
def State.timerPhase (due : Bool) (s : State) : State :=
  match s.mode with
  | .halted _ => s
  | .running => if due then (s.setDt (tick s.dt)).setSt (tick s.st) else s
  | .awaitingKey _ => if due then (s.setDt (tick s.dt)).setSt (tick s.st) else s

/-! ## The cycle (R270) -/

/-- The end of a cycle, for the model's own fields: the host's input is used up. -/
def State.endCycle (s : State) : State := { s with inputs := s.inputs.tail, cycle := s.cycle + 1 }

/-- What follows the execute phase. -/
def finishCycle (due : Bool) : Host.Outcome State Fault Refusal → Host.Outcome State Fault Refusal
  | .next t => .next (t.timerPhase due).endCycle
  | .fault f => .fault f
  | .refused r => .refused r

/-- `Cycle(events, timer_due, rnd)` (R270); a halted CORE changes nothing (R258). -/
def cycleOnce (s : State) : Host.Outcome State Fault Refusal :=
  match s.mode with
  | .halted _ => .next s
  | .running => finishCycle s.currentInput.timerDue (executePhase (s.applyEvents s.currentInput.events))
  | .awaitingKey _ => finishCycle s.currentInput.timerDue (executePhase (s.applyEvents s.currentInput.events))

/-! ## Boot (R292, R293) -/

/-- The state with a font table in its place (R45, R51). A table has `Config.fontSize` bytes. -/
def State.withFont (font : List Byte) (s : State) : State :=
  { s with mem := s.mem.writeBytes Config.fontBase font }

/-- The ROM load: the bytes lie from 0x200 up; a ROM of more than 3584 bytes is refused and no run starts (R293, D23). -/
def loadRom (rom : List Byte) (s : State) : Host.Outcome State Fault Refusal :=
  if rom.length ≤ Config.maxRom then .next { s with mem := s.mem.writeBytes Config.programBase rom }
  else .refused (.romTooLong rom.length)

/-- The boot with a font table and a ROM: initialise, then load (R292). The CORE boots with `Config.fontTable`, for which
the initialised state is `State.reset`. -/
def boot (font rom : List Byte) : Host.Outcome State Fault Refusal := loadRom rom (State.reset.withFont font)

/-! ## Placing one instruction where the next cycle fetches it -/

/-- The address the next fetch reads: `PC` where it can be fetched from, the program base otherwise. -/
def State.fetchAddr (s : State) : Nat := if s.pc.toNat ≤ Config.lastFetch then s.pc.toNat else Config.programBase

/-- The state with a word stored, high byte first, where the next cycle fetches. A CORE that would not fetch there (not
running, `PC` out of bounds, events waiting) is brought to fetch; for the state after reset only memory changes. -/
def State.placeWord (w : Word) (s : State) : State :=
  { s with
    mem := s.mem.writeBytes s.fetchAddr [highByte w, lowByte w]
    pc := BitVec.ofNat 16 s.fetchAddr
    mode := .running
    inputs := s.inputs.modifyHead fun c => { c with events := [] } }

end Sys2Proof.Machine
end

