-- ==== Sys2Proof/Machine/Step.lean ====
section
/-! DEFINITION. One step of the model is one scheduler cycle (00_scope.md R5; 60_exceptions.md R270). -/

namespace Sys2Proof.Machine

/-- One scheduler cycle: a next state always, since the spec's errors are next states (R250, R252, R256). -/
def step (s : State) : Host.Outcome State Fault Refusal := cycleOnce s

/-- `s` with a table word stored where `step` fetches its next instruction. Log entry 5 says how a program comes to run
from reset: the host loads the ROM from outside before the first cycle (R292). -/
def State.withFetchWord (s : State) (nbits w : Nat) : State := s.placeWord (BitVec.ofNat 16 (w % 2 ^ nbits))

end Sys2Proof.Machine
end

