-- ==== Sys2Proof/Safety.lean ====
section
/-! DEFINITION. The terms claims use: the invariant of a run, faulted states, what a frame keeps, and the host's promise. -/

namespace Sys2Proof.Machine

/-! ## Safe runs -/

/-- A fatal fault has ended the run (R252). A claim reads no architectural state of such a state (D18, U1). -/
def State.faulted (s : State) : Bool :=
  match s.mode with
  | .halted (.fault _) => true
  | .halted .quit => false
  | .running => false
  | .awaitingKey _ => false

/-- A safe run of `n` cycles: none of its states is faulted. -/
def safeFor : Nat → State → Prop
  | 0, s => s.faulted = false
  | n + 1, s => s.faulted = false ∧ ∃ t, step s = .next t ∧ safeFor n t

/-! ## The invariant of a run -/

/-- What every state that a run reaches satisfies: memory in canonical form inside the 4096 bytes (R44), `I` at most 0xFFF
(R35), `PC` at most 0x10FE (R36), a stack of at most 16 entries (R38), each a return address `a + 2` of a fetchable `a`
(R100, R132). -/
structure State.Sound (s : State) : Prop where
  memWf    : s.mem.wf
  iBound   : s.i.toNat < Config.memSize
  pcBound  : s.pc.toNat ≤ 0x10FE
  spBound  : s.sp ≤ Config.stackDepth
  entries  : ∀ a ∈ s.stack, a.toNat ≤ 0x1000

/-- The invariant: a state whose run no fatal fault has ended is sound. It says nothing of a faulted state (U1). -/
def State.Inv (s : State) : Prop := s.faulted = false → s.Sound

/-! ## Frames (R11) -/

/-- The parts of the state a frame speaks of; the program counter is stated apart. -/
inductive Part where
  | regs | mem | index | stack | delay | sound | display | keys | mode | log | host
deriving DecidableEq, Repr

/-- A part of the state is the same in `t` as in `s`, read through the model's own accessors. -/
def keeps (s t : State) : Part → Prop
  | .regs => ∀ j, t.reg j = s.reg j
  | .mem => ∀ a, t.memRead a = s.memRead a
  | .index => t.i = s.i
  | .stack => t.stack = s.stack
  | .delay => t.dt = s.dt
  | .sound => t.st = s.st
  | .display => ∀ c r, t.fb.pixel c r = s.fb.pixel c r
  | .keys => ∀ k, t.key k = s.key k
  | .mode => t.mode = s.mode
  | .log => t.diag = s.diag
  | .host => t.inputs = s.inputs ∧ t.cycle = s.cycle

/-- Every part but the listed ones (and the program counter) is unchanged. -/
def Frame (changed : List Part) (s t : State) : Prop := ∀ p, p ∉ changed → keeps s t p

/-- Every register but the listed ones is unchanged. -/
def RegsBut (xs : List Nibble) (s t : State) : Prop := ∀ j, j ∉ xs → t.reg j = s.reg j

/-- Every byte of memory outside `count` bytes from `base` is unchanged. -/
def MemBut (base count : Nat) (s t : State) : Prop :=
  ∀ a, ¬ (base ≤ a ∧ a < base + count) → t.memRead a = s.memRead a

/-! ## Who writes what (R31, R33, R35, R37 to R43, R48) -/

/-- The words of R109: reported, with no other effect. -/
def reported : Instr → Bool
  | .sys _ | .unimpl5 _ _ _ | .unimpl8 _ _ _ | .unimpl9 _ _ _ | .unimplE _ _ | .unimplF _ _ => true
  | .cls _ | .ret _ | .jp _ | .call _ | .seImm _ _ | .sneImm _ _ | .seReg _ _ | .sneReg _ _ | .ldI _ | .jpV0 _ => false
  | .ldImm _ _ | .addImm _ _ | .ldReg _ _ | .orReg _ _ | .andReg _ _ | .xorReg _ _ | .addReg _ _ | .subReg _ _ => false
  | .shr _ _ | .subnReg _ _ | .shl _ _ | .rnd _ _ | .drw _ _ _ | .skp _ | .sknp _ | .ldVxDt _ | .ldVxK _ => false
  | .ldDtVx _ | .ldStVx _ | .addI _ | .ldF _ | .ldB _ | .ldMemVx _ | .ldVxMem _ => false

/-- The instructions that write VF as a flag, whatever `X` is (R33). -/
def writesFlag : Instr → Bool
  | .addReg _ _ | .subReg _ _ | .shr _ _ | .subnReg _ _ | .shl _ _ | .drw _ _ _ => true
  | .cls _ | .ret _ | .sys _ | .jp _ | .call _ | .seImm _ _ | .sneImm _ _ | .seReg _ _ | .sneReg _ _ | .ldI _ => false
  | .jpV0 _ | .ldImm _ _ | .addImm _ _ | .ldReg _ _ | .orReg _ _ | .andReg _ _ | .xorReg _ _ | .rnd _ _ => false
  | .skp _ | .sknp _ | .ldVxDt _ | .ldVxK _ | .ldDtVx _ | .ldStVx _ | .addI _ | .ldF _ | .ldB _ | .ldMemVx _ => false
  | .ldVxMem _ | .unimpl5 _ _ _ | .unimpl8 _ _ _ | .unimpl9 _ _ _ | .unimplE _ _ | .unimplF _ _ => false

/-- The registers an instruction names as a destination (R31); FX0A writes its register at the resume, in the input
phase of a later cycle. -/
def namesDest : Instr → Nibble → Bool
  | .ldImm x _, j | .addImm x _, j | .rnd x _, j | .ldVxDt x, j => j == x
  | .ldReg x _, j | .orReg x _, j | .andReg x _, j | .xorReg x _, j | .addReg x _, j | .subReg x _, j => j == x
  | .shr x _, j | .subnReg x _, j | .shl x _, j => j == x
  | .ldVxMem x, j => j.toNat ≤ x.toNat
  | .cls _, _ | .ret _, _ | .sys _, _ | .jp _, _ | .call _, _ | .seImm _ _, _ | .sneImm _ _, _ | .seReg _ _, _ => false
  | .sneReg _ _, _ | .ldI _, _ | .jpV0 _, _ | .drw _ _ _, _ | .skp _, _ | .sknp _, _ | .ldVxK _, _ | .ldDtVx _, _ => false
  | .ldStVx _, _ | .addI _, _ | .ldF _, _ | .ldB _, _ | .ldMemVx _, _ | .unimpl5 _ _ _, _ | .unimpl8 _ _ _, _ => false
  | .unimpl9 _ _ _, _ | .unimplE _ _, _ | .unimplF _ _, _ => false

/-- The parts of the state an instruction that does not fault may write (R31, R35, R39, R40, R42, R48, R222). -/
def mayWrite : Instr → List Part
  | .cls _ => [.display]
  | .ret _ | .call _ => [.stack]
  | .sys _ | .unimpl5 _ _ _ | .unimpl8 _ _ _ | .unimpl9 _ _ _ | .unimplE _ _ | .unimplF _ _ => [.log]
  | .jp _ | .jpV0 _ | .seImm _ _ | .sneImm _ _ | .seReg _ _ | .sneReg _ _ | .skp _ | .sknp _ => []
  | .ldImm _ _ | .addImm _ _ | .ldReg _ _ | .orReg _ _ | .andReg _ _ | .xorReg _ _ | .addReg _ _ => [.regs]
  | .subReg _ _ | .shr _ _ | .subnReg _ _ | .shl _ _ | .rnd _ _ | .ldVxDt _ | .ldVxMem _ => [.regs]
  | .drw _ _ _ => [.regs, .display]
  | .ldI _ | .addI _ | .ldF _ => [.index]
  | .ldVxK _ => [.mode]
  | .ldDtVx _ => [.delay]
  | .ldStVx _ => [.sound]
  | .ldB _ | .ldMemVx _ => [.mem]

/-! ## Sprites (R202, R203) -/

/-- The sprite bit that lands on column `c`, row `r` under `Wrap`, for a sprite of the bytes `rows` drawn at `(x0, y0)`:
the pixel `(c', r')` of the sprite with `(x0 + c') mod 64 = c` and `(y0 + r') mod 32 = r`. -/
def spriteAt (rows : List Byte) (x0 y0 : Nat) (c : Fin Config.displayW) (r : Fin Config.displayH) : Prop :=
  ∃ c' r', c' < 8 ∧ (x0 + c') % 64 = c.val ∧ (y0 + r') % 32 = r.val ∧
    ∃ row, rows[r']? = some row ∧ row.getLsbD (7 - c') = true

/-! ## The host's events (R223, R271) -/

/-- The latch of key `k` after a list of events, from its value `b` before them: set by a press of `k`, cleared by a release
of it, and kept by the events of other keys. -/
def latchAfter (k : Nibble) (b : Bool) : List Event → Bool
  | [] => b
  | .press j :: es => latchAfter k (b || j == k) es
  | .release j :: es => latchAfter k (b && j != k) es
  | .quit :: _ => b

/-- No event of the list is a transition from released to pressed: every press finds its latch set, from the latches `keys`
before the list. -/
def NoFreshPress (keys : Nibble → Bool) (es : List Event) : Prop :=
  ∀ (j : Nibble) (fs gs : List Event), es = fs ++ .press j :: gs → latchAfter j (keys j) fs = true

/-! ## The host's promise (R273) -/

/-- How many of the cycles' inputs carry a timer tick. -/
def ticksDue (inputs : List CycleInput) : Nat := inputs.countP fun c => c.timerDue

end Sys2Proof.Machine
end

