-- ==== Sys2Proof/Certificates/Slice0/Obligations.lean ====
section
/-! DEFINITION. The statements about the CORE. Each docstring names the rules it rests on, and the spec's decision or the log
entry where it rests on a choice. `Frame ps s t`: every part of the state but those in `ps` is unchanged, every byte of
memory among them; the program counter is stated apart. Nothing is stated of the architectural state beside a fatal
fault's record (R252, U1). -/

open Sys2Proof
open Sys2Proof.Machine

/-! ## Encoding -/

/-- Words written out in the spec's own examples decode to the instructions they stand for (patterns: GK1, log entry 1). -/
def Obligations.SpecExampleWordsDecode : Prop :=
  decodeWord 0x00E0 = .cls 0x0 ∧ decodeWord 0x01EE = .ret 0x1 ∧ decodeWord 0x0123 = .sys 0x123 ∧
  decodeWord 0x1234 = .jp 0x234 ∧ decodeWord 0x2300 = .call 0x300 ∧ decodeWord 0x332A = .seImm 0x3 0x2A ∧
  decodeWord 0x4301 = .sneImm 0x3 0x01 ∧ decodeWord 0x5120 = .seReg 0x1 0x2 ∧ decodeWord 0x6A2B = .ldImm 0xA 0x2B ∧
  decodeWord 0x7102 = .addImm 0x1 0x02 ∧ decodeWord 0x8124 = .addReg 0x1 0x2 ∧ decodeWord 0x8106 = .shr 0x1 0x0 ∧
  decodeWord 0x9120 = .sneReg 0x1 0x2 ∧ decodeWord 0xA400 = .ldI 0x400 ∧ decodeWord 0xB300 = .jpV0 0x300 ∧
  decodeWord 0xC10F = .rnd 0x1 0x0F ∧ decodeWord 0xD015 = .drw 0x0 0x1 0x5 ∧ decodeWord 0xE19E = .skp 0x1 ∧
  decodeWord 0xF355 = .ldMemVx 0x3 ∧ decodeWord 0x5121 = .unimpl5 0x1 0x2 0x1 ∧ decodeWord 0xF1FF = .unimplF 0x1 0xFF

/-- Decoding the bytes of a well-formed instruction gives it back, whatever follows it (R103 to R108; GK1, GK2, log entries
1 and 2). -/
def Obligations.DecodeOfEncodeIsTheInstruction : Prop :=
  ∀ (i : Instr) (rest : List Byte), i.wellFormed = true → decode (encodeBytes i ++ rest) = .ok (i, rest)

/-- Any two bytes decode, to a well-formed instruction whose word they are: decoding is total and drops no bit (R103,
R110; log entries 1 and 2). -/
def Obligations.EveryWordIsOneInstruction : Prop :=
  ∀ (hi lo : Byte) (rest : List Byte), ∃ i : Instr,
    decode (hi :: lo :: rest) = .ok (i, rest) ∧ i.wellFormed = true ∧ (encode i).toNat = hi.toNat * 256 + lo.toNat

/-- The reported words are exactly the groups of R109, in numbers (D12; log entries 1 and 8). -/
def Obligations.ReportedWordsAreTheReservedGroups : Prop :=
  ∀ w : Word, reported (decodeWord w) = true ↔
    (w.toNat / 4096 = 0x0 ∧ w.toNat % 256 ∉ [0xE0, 0xEE]) ∨
    (w.toNat / 4096 = 0x5 ∧ w.toNat % 16 ≠ 0) ∨
    (w.toNat / 4096 = 0x8 ∧ w.toNat % 16 ∈ [0x8, 0x9, 0xA, 0xB, 0xC, 0xD, 0xF]) ∨
    (w.toNat / 4096 = 0x9 ∧ w.toNat % 16 ≠ 0) ∨
    (w.toNat / 4096 = 0xE ∧ w.toNat % 256 ∉ [0x9E, 0xA1]) ∨
    (w.toNat / 4096 = 0xF ∧ w.toNat % 256 ∉ [0x07, 0x0A, 0x15, 0x18, 0x1E, 0x29, 0x33, 0x55, 0x65])

/-! ## The step -/

/-- When the CORE is running after the input phase and the bytes at `PC` decode to `i`, the cycle is `exec i`, then the
timer phase, then the end of the cycle (R100, R270; byte order: log entry 2). -/
def Obligations.StepRunsTheDecodedInstruction : Prop :=
  ∀ (s t : State) (i : Instr) (hi lo : Byte),
    (∀ r, s.mode ≠ .halted r) → (s.applyEvents s.currentInput.events).mode = .running →
    s.pc.toNat ≤ 0xFFE → s.memRead s.pc.toNat = some hi → s.memRead (s.pc.toNat + 1) = some lo →
    decode [hi, lo] = .ok (i, []) →
    exec i (s.applyEvents s.currentInput.events) = .next t →
    step s = .next (t.timerPhase s.currentInput.timerDue).endCycle

/-- The step after `withFetchWord` runs the placed word's instruction, and after reset only memory has changed
(the host's interface of this model; log entry 5). -/
def Obligations.PlacedWordIsTheNextInstruction : Prop :=
  (∀ (s : State) (nbits w : Nat) (i : Instr), s.mem.wf → decodeTableWord nbits w = some i →
    step (s.withFetchWord nbits w) =
      finishCycle (s.withFetchWord nbits w).currentInput.timerDue (exec i (s.withFetchWord nbits w))) ∧
  ∀ nbits w : Nat, Frame [.mem] State.reset (State.reset.withFetchWord nbits w) ∧
    (State.reset.withFetchWord nbits w).pc = State.reset.pc

/-- A fetch with `PC` above 0xFFE halts the run with `FetchOutOfBounds`, which records `PC` and no word (R100, R251; the
spec's decision D5). -/
def Obligations.FetchAboveLimitHalts : Prop :=
  ∀ s : State, (∀ r, s.mode ≠ .halted r) → (s.applyEvents s.currentInput.events).mode = .running → 0xFFE < s.pc.toNat →
    ∃ t, step s = .next t ∧ t.mode = .halted (.fault (.fetchOutOfBounds s.pc)) ∧ t.diag = s.diag

/-- A store is seen by the very next fetch, high byte at the lower address: after a register dump at `I`, the word fetched
at the stored bytes is `V[n] : V[n+1]` (R72, R83; the spec's decisions D1 and D25, log entry 2). -/
def Obligations.NextFetchSeesStoredRegisters : Prop :=
  ∀ (x n : Nibble) (s : State), s.mem.wf → s.iBase + x.toNat ≤ 0xFFF → n.toNat < x.toNat →
    ∃ t, exec (.ldMemVx x) s = .next t ∧
      (t.setPc (BitVec.ofNat 16 (s.iBase + n.toNat))).fetch = some (wordOfBytes (s.reg n) (s.reg (n + 1)))

/-- Every instruction and every cycle end in a next state: no error of the CORE is a stop without one (R250, R252, R256;
for the reserved words the spec's decision D12, log entry 8). -/
def Obligations.EveryCycleEndsInANextState : Prop :=
  (∀ (i : Instr) (s : State), ∃ t, exec i s = .next t) ∧ ∀ s : State, ∃ t, step s = .next t

/-! ## Reset, boot and the invariant -/

/-- The state after initialisation: memory zero except the font, registers zero, `PC` 0x200, stack empty, timers zero,
framebuffer clear; and by the spec's decision D19 `I` zero, keys released, `Running`, empty log (R51; log entry 11; the
font bytes are `FontTable`, log entry 6). -/
def Obligations.ResetState : Prop :=
  (∀ a, a < 0x50 → State.reset.memRead a = Config.fontTable[a]?) ∧
  (∀ a, 0x50 ≤ a → a < 0x1000 → State.reset.memRead a = some 0) ∧ (∀ a, 0x1000 ≤ a → State.reset.memRead a = none) ∧
  (∀ j, State.reset.reg j = 0) ∧ State.reset.i = 0 ∧ State.reset.pc = 0x200 ∧ State.reset.sp = 0 ∧
  (∀ n, State.reset.entry n = none) ∧ State.reset.dt = 0 ∧ State.reset.st = 0 ∧
  (∀ c r, State.reset.fb.pixel c r = false) ∧ (∀ k, State.reset.key k = false) ∧ State.reset.mode = .running ∧
  State.reset.diag = []

/-- The invariant of a run holds after reset and after a ROM load (R51, R293). -/
def Obligations.InvariantHoldsAtStart : Prop :=
  State.reset.Inv ∧ ∀ (rom : List Byte) (t : State), loadRom rom State.reset = .next t → t.Inv

/-- Every cycle keeps the invariant: memory canonical and inside 4096 bytes, `I` at most 0xFFF, `PC` at most 0x10FE, at
most 16 return addresses, each at most 0x1000 (R35, R36, R38, R44). -/
def Obligations.StepKeepsTheInvariant : Prop :=
  ∀ s t : State, s.Inv → step s = .next t → t.Inv

/-- Equal memories are equal data: two canonical memories with the same bytes are the same list (R44; the form is the
model's). -/
def Obligations.SameBytesSameMemory : Prop :=
  ∀ m n : Memory, m.wf → n.wf → (∀ a, a < 4096 → m.read a = n.read a) → m = n

/-- The ROM load puts the bytes at 0x200 and up and changes nothing else; more than 3584 bytes are refused (R293; the
spec's decision D23). -/
def Obligations.RomLoadPlacesBytesOrRefuses : Prop :=
  ∀ (rom : List Byte) (s : State), s.mem.wf →
    (rom.length ≤ 3584 → ∃ t, loadRom rom s = .next t ∧
      (∀ (n : Nat) (h : n < rom.length), t.memRead (0x200 + n) = some rom[n]) ∧
      MemBut 0x200 rom.length s t ∧ Frame [.mem] s t ∧ t.pc = s.pc) ∧
    (3584 < rom.length → loadRom rom s = .refused (.romTooLong rom.length))

/-- The boot with any font table of 80 bytes and any ROM that fits: the table at 0x000 to 0x04F, the ROM from 0x200, zero
elsewhere, and all else as after reset; the CORE's own table gives `State.reset` (R45, R292, R293; the spec's decisions D10,
D19 and D23, log entries 6, 11 and 20). -/
def Obligations.BootPlacesFontAndRom : Prop :=
  (∀ font rom : List Byte, font.length = 80 → rom.length ≤ 3584 → ∃ t, boot font rom = .next t ∧
    (∀ a, a < 0x50 → t.memRead a = font[a]?) ∧ (∀ n, n < rom.length → t.memRead (0x200 + n) = rom[n]?) ∧
    (∀ a, 0x50 ≤ a → a < 0x1000 → ¬ (0x200 ≤ a ∧ a < 0x200 + rom.length) → t.memRead a = some 0) ∧
    t.pc = 0x200 ∧ Frame [.mem] State.reset t) ∧
  ∀ rom, boot Config.fontTable rom = loadRom rom State.reset

/-! ## Control flow -/

/-- `JP nnn`: `PC` is `nnn`; nothing else changes (R131). -/
def Obligations.JumpResult : Prop :=
  ∀ (nnn : Addr12) (s : State), ∃ t, exec (.jp nnn) s = .next t ∧ t.pc.toNat = nnn.toNat ∧ Frame [] s t

/-- `JP V0, nnn`: `PC` is `nnn + V[0]`, not reduced; nothing else changes (R137; the spec's decision D5). -/
def Obligations.JumpWithOffsetResult : Prop :=
  ∀ (nnn : Addr12) (s : State), ∃ t, exec (.jpV0 nnn) s = .next t ∧ t.pc.toNat = nnn.toNat + (s.reg 0).toNat ∧ Frame [] s t

/-- `Push` with any stack depth: below it `S[SP]` is the value and `SP` one more, the other entries are kept; at it and
above nothing is pushed. The configured constant `StackDepth` is 16 (R39; the spec's decision D20, log entry 21). -/
def Obligations.PushFollowsTheDepth : Prop :=
  (∀ (depth : Nat) (v : Word) (s : State), s.sp < depth → ∃ t, s.push depth v = some t ∧ t.sp = s.sp + 1 ∧
    t.entry s.sp = some v ∧ (∀ n, n ≠ s.sp → t.entry n = s.entry n) ∧ t.pc = s.pc ∧ Frame [.stack] s t) ∧
  (∀ (depth : Nat) (v : Word) (s : State), depth ≤ s.sp → s.push depth v = none) ∧ Config.stackDepth = 16

/-- `CALL nnn` with room on the stack: pushes `a + 2` as `S[SP]`, keeps the other entries, and jumps (R132; the spec's
decision D2). -/
def Obligations.CallResult : Prop :=
  ∀ (nnn : Addr12) (s : State), s.sp < 16 → ∃ t, exec (.call nnn) s = .next t ∧
    t.pc.toNat = nnn.toNat ∧ t.sp = s.sp + 1 ∧ t.entry s.sp = some (s.pc + 2) ∧
    (∀ n, n ≠ s.sp → t.entry n = s.entry n) ∧ Frame [.stack] s t

/-- `RET` with an entry on the stack: `PC` is the top entry, `SP` one less, the entries below are kept; `x` is ignored
(R130; the spec's decision D13 for `x`). -/
def Obligations.ReturnResult : Prop :=
  ∀ (x : Nibble) (s : State), 0 < s.sp → ∃ t, exec (.ret x) s = .next t ∧
    s.entry (s.sp - 1) = some t.pc ∧ t.sp = s.sp - 1 ∧ (∀ n, n < t.sp → t.entry n = s.entry n) ∧ Frame [.stack] s t

/-- Stack violations halt the run and record the instruction and the program counter: RET on an empty stack, CALL on a
full one, which holds 16 entries; the log is kept (R253; the spec's decisions D13 for `x`, D18 and D20, log entries 10, 14
and 21). -/
def Obligations.StackViolationsHalt : Prop :=
  (∀ (x : Nibble) (s : State), s.sp = 0 → ∃ t, exec (.ret x) s = .next t ∧
    t.mode = .halted (.fault (.stackUnderflow (encode (.ret x)) s.pc)) ∧ t.diag = s.diag) ∧
  (∀ (nnn : Addr12) (s : State), s.sp = 16 → ∃ t, exec (.call nnn) s = .next t ∧
    t.mode = .halted (.fault (.stackOverflow (encode (.call nnn)) s.pc)) ∧ t.diag = s.diag)

/-- A call followed by a return comes back to the instruction after the call, with the stack and all else as before
(vector T4; 90_conflicts.md C9). -/
def Obligations.CallThenReturnRestores : Prop :=
  ∀ (nnn : Addr12) (x : Nibble) (s : State), s.sp < 16 → ∃ t u, exec (.call nnn) s = .next t ∧ exec (.ret x) t = .next u ∧
    u.pc = s.pc + 2 ∧ Frame [] s u

/-- The four skips on registers: `PC` is `a + 4` when the condition holds and `a + 2` otherwise; nothing else changes
(R133 to R136). -/
def Obligations.RegisterSkipResults : Prop :=
  ∀ (x y : Nibble) (nn : Byte) (s : State),
    (∃ t, exec (.seImm x nn) s = .next t ∧ Frame [] s t ∧
      ((s.reg x).toNat = nn.toNat → t.pc = s.pc + 4) ∧ ((s.reg x).toNat ≠ nn.toNat → t.pc = s.pc + 2)) ∧
    (∃ t, exec (.sneImm x nn) s = .next t ∧ Frame [] s t ∧
      ((s.reg x).toNat ≠ nn.toNat → t.pc = s.pc + 4) ∧ ((s.reg x).toNat = nn.toNat → t.pc = s.pc + 2)) ∧
    (∃ t, exec (.seReg x y) s = .next t ∧ Frame [] s t ∧
      ((s.reg x).toNat = (s.reg y).toNat → t.pc = s.pc + 4) ∧ ((s.reg x).toNat ≠ (s.reg y).toNat → t.pc = s.pc + 2)) ∧
    (∃ t, exec (.sneReg x y) s = .next t ∧ Frame [] s t ∧
      ((s.reg x).toNat ≠ (s.reg y).toNat → t.pc = s.pc + 4) ∧ ((s.reg x).toNat = (s.reg y).toNat → t.pc = s.pc + 2))

/-- The program counter of every instruction that does not end the run: the popped value, `NNN`, `NNN + V0`, `a + 4` or
`a + 2` for a skip, and `a + 2` for every other instruction, FX0A suspends there (R12, R37; the spec's decisions
D5 for the unreduced sum and D31 for FX0A, log entries 15 and 19). -/
def Obligations.ProgramCounterOfEveryInstruction : Prop :=
  ∀ (i : Instr) (s t : State), exec i s = .next t → (∀ r, t.mode ≠ .halted r) →
    match i with
    | .ret _ => s.entry (s.sp - 1) = some t.pc
    | .jp nnn | .call nnn => t.pc.toNat = nnn.toNat
    | .jpV0 nnn => t.pc.toNat = nnn.toNat + (s.reg 0).toNat
    | .seImm x nn => t.pc = if s.reg x = nn then s.pc + 4 else s.pc + 2
    | .sneImm x nn => t.pc = if s.reg x = nn then s.pc + 2 else s.pc + 4
    | .seReg x y => t.pc = if s.reg x = s.reg y then s.pc + 4 else s.pc + 2
    | .sneReg x y => t.pc = if s.reg x = s.reg y then s.pc + 2 else s.pc + 4
    | .skp x => ∀ k : Nibble, k.toNat = (s.reg x).toNat → t.pc = if s.key k = true then s.pc + 4 else s.pc + 2
    | .sknp x => ∀ k : Nibble, k.toNat = (s.reg x).toNat → t.pc = if s.key k = true then s.pc + 2 else s.pc + 4
    | .ldVxK x => t.pc = s.pc + 2 ∧ t.mode = .awaitingKey x
    | _ => t.pc = s.pc + 2

/-! ## ALU -/

/-- `LD Vx, nn`: `V[x]` is exactly `nn`, no other register changes, VF among them (R150). -/
def Obligations.LoadImmediateResult : Prop :=
  ∀ (x : Nibble) (nn : Byte) (s : State), ∃ t, exec (.ldImm x nn) s = .next t ∧
    t.reg x = nn ∧ t.pc = s.pc + 2 ∧ RegsBut [x] s t ∧ Frame [.regs] s t

/-- `ADD Vx, nn`: the sum modulo 256, and no flag (R151). -/
def Obligations.AddImmediateResult : Prop :=
  ∀ (x : Nibble) (nn : Byte) (s : State), ∃ t, exec (.addImm x nn) s = .next t ∧
    (t.reg x).toNat = ((s.reg x).toNat + nn.toNat) % 256 ∧ t.pc = s.pc + 2 ∧ RegsBut [x] s t ∧ Frame [.regs] s t

/-- `LD Vx, Vy`, `OR`, `AND` and `XOR`: bit by bit, and no flag (R152 to R155). -/
def Obligations.CopyAndLogicResults : Prop :=
  ∀ (x y : Nibble) (s : State),
    (∃ t, exec (.ldReg x y) s = .next t ∧ t.reg x = s.reg y ∧ t.pc = s.pc + 2 ∧ RegsBut [x] s t ∧ Frame [.regs] s t) ∧
    (∃ t, exec (.orReg x y) s = .next t ∧ (∀ k, (t.reg x).getLsbD k = ((s.reg x).getLsbD k || (s.reg y).getLsbD k)) ∧
      t.pc = s.pc + 2 ∧ RegsBut [x] s t ∧ Frame [.regs] s t) ∧
    (∃ t, exec (.andReg x y) s = .next t ∧ (∀ k, (t.reg x).getLsbD k = ((s.reg x).getLsbD k && (s.reg y).getLsbD k)) ∧
      t.pc = s.pc + 2 ∧ RegsBut [x] s t ∧ Frame [.regs] s t) ∧
    (∃ t, exec (.xorReg x y) s = .next t ∧ (∀ k, (t.reg x).getLsbD k = ((s.reg x).getLsbD k ^^ (s.reg y).getLsbD k)) ∧
      t.pc = s.pc + 2 ∧ RegsBut [x] s t ∧ Frame [.regs] s t)

/-- `ADD Vx, Vy`: the sum modulo 256 in `V[x]`, the carry in VF; with `X = F` VF holds the carry (R156; write order: the
spec's decision D3, log entry 9). -/
def Obligations.AddRegistersResult : Prop :=
  ∀ (x y : Nibble) (s : State), ∃ t, exec (.addReg x y) s = .next t ∧
    (x ≠ vf → (t.reg x).toNat = ((s.reg x).toNat + (s.reg y).toNat) % 256) ∧
    (t.reg vf).toNat = (if (s.reg x).toNat + (s.reg y).toNat > 255 then 1 else 0) ∧
    t.pc = s.pc + 2 ∧ RegsBut [x, vf] s t ∧ Frame [.regs] s t

/-- `SUB Vx, Vy` and `SUBN Vx, Vy`: the difference modulo 256, and VF is 1 exactly when there is no borrow (`>=`); with
`X = F` VF holds the flag (R157, R158; write order: the spec's decision D3, log entry 9; polarity: 90_conflicts.md C6). -/
def Obligations.SubtractRegistersResults : Prop :=
  ∀ (x y : Nibble) (s : State),
    (∃ t, exec (.subReg x y) s = .next t ∧
      (x ≠ vf → ((t.reg x).toNat : Int) = ((s.reg x).toNat - (s.reg y).toNat : Int) % 256) ∧
      (t.reg vf).toNat = (if (s.reg x).toNat ≥ (s.reg y).toNat then 1 else 0) ∧
      t.pc = s.pc + 2 ∧ RegsBut [x, vf] s t ∧ Frame [.regs] s t) ∧
    (∃ t, exec (.subnReg x y) s = .next t ∧
      (x ≠ vf → ((t.reg x).toNat : Int) = ((s.reg y).toNat - (s.reg x).toNat : Int) % 256) ∧
      (t.reg vf).toNat = (if (s.reg y).toNat ≥ (s.reg x).toNat then 1 else 0) ∧
      t.pc = s.pc + 2 ∧ RegsBut [x, vf] s t ∧ Frame [.regs] s t)

/-- `SHR Vx` and `SHL Vx`, whatever `Y` is: half or twice modulo 256, VF the bit moved out; with `X = F` VF holds that bit
(R159, R160; write order: the spec's decision D3, log entry 9). -/
def Obligations.ShiftResults : Prop :=
  ∀ (x y : Nibble) (s : State),
    (∃ t, exec (.shr x y) s = .next t ∧
      (x ≠ vf → (t.reg x).toNat = (s.reg x).toNat / 2) ∧ (t.reg vf).toNat = (s.reg x).toNat % 2 ∧
      t.pc = s.pc + 2 ∧ RegsBut [x, vf] s t ∧ Frame [.regs] s t) ∧
    (∃ t, exec (.shl x y) s = .next t ∧
      (x ≠ vf → (t.reg x).toNat = (s.reg x).toNat * 2 % 256) ∧ (t.reg vf).toNat = (s.reg x).toNat / 128 ∧
      t.pc = s.pc + 2 ∧ RegsBut [x, vf] s t ∧ Frame [.regs] s t)

/-- `RND Vx, nn`: `V[x]` is the cycle's random byte AND `nn`, for whatever byte the host gives (R162; the spec's decision
D14, log entry 4). -/
def Obligations.RandomAndResult : Prop :=
  (∀ (x : Nibble) (nn : Byte) (s : State), ∃ t, exec (.rnd x nn) s = .next t ∧
    (∀ k, (t.reg x).getLsbD k = (s.currentInput.rnd.getLsbD k && nn.getLsbD k)) ∧
    t.pc = s.pc + 2 ∧ RegsBut [x] s t ∧ Frame [.regs] s t) ∧
  (∀ (x : Nibble) (c : CycleInput) (s : State), s.inputs.head? = some c →
    ∃ t, exec (.rnd x 0xFF) s = .next t ∧ t.reg x = c.rnd)

/-- The writers of VF as a flag leave 0 or 1 in it on every execution that does not end the run (R33; the spec's decision
D3, log entry 9). -/
def Obligations.FlagsAreZeroOrOne : Prop :=
  ∀ (i : Instr) (s t : State), writesFlag i = true → exec i s = .next t → (∀ r, t.mode ≠ .halted r) →
    t.reg vf = 0 ∨ t.reg vf = 1

/-- An instruction that does not fault changes a register only where it names it as a destination or writes VF as a flag
(R31, R33). -/
def Obligations.RegistersAreWrittenOnlyByTheirWriters : Prop :=
  ∀ (i : Instr) (s t : State) (j : Nibble), exec i s = .next t → t.faulted = false →
    namesDest i j = false → (writesFlag i = false ∨ j ≠ vf) → t.reg j = s.reg j

/-! ## Index register and memory -/

/-- `LD I, nnn`, `ADD I, Vx` and `LD F, Vx`: `I` is `nnn`, the sum modulo 4096, or five times `V[x]`; no flag (R180 to
R182). -/
def Obligations.IndexRegisterResults : Prop :=
  ∀ (nnn : Addr12) (x : Nibble) (s : State),
    (∃ t, exec (.ldI nnn) s = .next t ∧ t.i.toNat = nnn.toNat ∧ t.pc = s.pc + 2 ∧ Frame [.index] s t) ∧
    (∃ t, exec (.addI x) s = .next t ∧ t.i.toNat = (s.i.toNat + (s.reg x).toNat) % 4096 ∧ t.pc = s.pc + 2 ∧
      Frame [.index] s t) ∧
    (∃ t, exec (.ldF x) s = .next t ∧ t.i.toNat = (s.reg x).toNat * 5 ∧ t.pc = s.pc + 2 ∧ Frame [.index] s t)

/-- `LD B, Vx` in range: the hundreds, tens and ones digit at `I[11:0]` and up, and no other byte (R183; the spec's
decision D6). -/
def Obligations.StoreBcdResult : Prop :=
  ∀ (x : Nibble) (s : State), s.mem.wf → s.iBase ≤ 0xFFD → ∃ t, exec (.ldB x) s = .next t ∧
    (∃ h d o : Byte, t.memRead s.iBase = some h ∧ t.memRead (s.iBase + 1) = some d ∧ t.memRead (s.iBase + 2) = some o ∧
      h.toNat = (s.reg x).toNat / 100 ∧ d.toNat = (s.reg x).toNat / 10 % 10 ∧ o.toNat = (s.reg x).toNat % 10) ∧
    MemBut s.iBase 3 s t ∧ t.pc = s.pc + 2 ∧ Frame [.mem] s t

/-- `LD [I], Vx` in range: `V[0]` to `V[x]`, inclusive, at `I[11:0]` and up, and no other byte (R185; the spec's decision
D6). -/
def Obligations.RegisterDumpResult : Prop :=
  ∀ (x : Nibble) (s : State), s.mem.wf → s.iBase + x.toNat ≤ 0xFFF → ∃ t, exec (.ldMemVx x) s = .next t ∧
    (∀ j : Nibble, j.toNat ≤ x.toNat → t.memRead (s.iBase + j.toNat) = some (s.reg j)) ∧
    MemBut s.iBase (x.toNat + 1) s t ∧ t.pc = s.pc + 2 ∧ Frame [.mem] s t

/-- `LD Vx, [I]` in range: `V[0]` to `V[x]`, inclusive, from `I[11:0]` and up; registers above `x` keep their value (R186;
the spec's decision D6). -/
def Obligations.RegisterLoadResult : Prop :=
  ∀ (x : Nibble) (s : State), s.iBase + x.toNat ≤ 0xFFF → ∃ t, exec (.ldVxMem x) s = .next t ∧
    (∀ j : Nibble, j.toNat ≤ x.toNat → s.memRead (s.iBase + j.toNat) = some (t.reg j)) ∧
    (∀ j : Nibble, x.toNat < j.toNat → t.reg j = s.reg j) ∧ t.pc = s.pc + 2 ∧ Frame [.regs] s t

/-- A dump and a load with no reload of `I` reproduce the registers, whatever the registers held in between (vector T6;
R184, the spec's decision D4). -/
def Obligations.DumpThenLoadRestores : Prop :=
  ∀ (x : Nibble) (v : Vector Byte 16) (s : State), s.mem.wf → s.iBase + x.toNat ≤ 0xFFF → ∃ t u,
    exec (.ldMemVx x) s = .next t ∧ exec (.ldVxMem x) { t with v := v } = .next u ∧
    (∀ j : Nibble, j.toNat ≤ x.toNat → u.reg j = s.reg j) ∧ u.i = s.i

/-- An access through `I` whose last byte address exceeds 0xFFF halts the run with `MemoryOutOfBounds`, which records the
instruction and the program counter (R76, R251; the spec's decision D6). -/
def Obligations.AccessPastMemoryHalts : Prop :=
  ∀ (i : Instr) (s : State),
    (match i with
      | .ldB _ => s.iBase + 2 > 0xFFF
      | .ldMemVx x | .ldVxMem x => s.iBase + x.toNat > 0xFFF
      | .drw _ _ n => n.toNat > 0 ∧ s.iBase + n.toNat - 1 > 0xFFF
      | _ => False) →
    ∃ t, exec i s = .next t ∧ t.mode = .halted (.fault (.memoryOutOfBounds (encode i) s.pc)) ∧ t.diag = s.diag

/-! ## Display -/

/-- `CLS`: every pixel clear, and no flag; `x` is ignored (R200; the spec's decision D13 for `x`, log entry 14). -/
def Obligations.ClearScreenResult : Prop :=
  ∀ (x : Nibble) (s : State), ∃ t, exec (.cls x) s = .next t ∧
    (∀ c r, t.fb.pixel c r = false) ∧ t.pc = s.pc + 2 ∧ Frame [.display] s t

/-- `Place` under both policies, and the configured constant `DrawEdgePolicy` is `Wrap` (R203; the spec's decision D7, log
entry 7). -/
def Obligations.PlaceFollowsThePolicy : Prop :=
  (∀ cx cy : Nat, ∃ q, place .wrap cx cy = some q ∧ q.1.val = cx % 64 ∧ q.2.val = cy % 32) ∧
  (∀ cx cy : Nat, cx < 64 → cy < 32 → ∃ q, place .clip cx cy = some q ∧ q.1.val = cx ∧ q.2.val = cy) ∧
  (∀ cx cy : Nat, 64 ≤ cx ∨ 32 ≤ cy → place .clip cx cy = none) ∧
  Config.drawEdgePolicy = .wrap

/-- `DRW Vx, Vy, n` in range: the pixels under a 1 bit of the sprite are inverted, the others kept; VF is 1 exactly when
such a pixel was set; with `n = 0` nothing is drawn and VF is 0 (R201, R202, R204; the spec's decisions D6, D7 and D8, log
entries 7 and 12). -/
def Obligations.DrawResult : Prop :=
  ∀ (x y n : Nibble) (s : State), n.toNat = 0 ∨ s.iBase + n.toNat - 1 ≤ 0xFFF →
    ∃ (rows : List Byte) (t : State), rows.length = n.toNat ∧
      (∀ k, k < n.toNat → s.memRead (s.iBase + k) = rows[k]?) ∧ exec (.drw x y n) s = .next t ∧
      (∀ c r, spriteAt rows (s.reg x).toNat (s.reg y).toNat c r → t.fb.pixel c r = !s.fb.pixel c r) ∧
      (∀ c r, ¬ spriteAt rows (s.reg x).toNat (s.reg y).toNat c r → t.fb.pixel c r = s.fb.pixel c r) ∧
      ((∃ c r, spriteAt rows (s.reg x).toNat (s.reg y).toNat c r ∧ s.fb.pixel c r = true) → t.reg vf = 1) ∧
      ((∀ c r, spriteAt rows (s.reg x).toNat (s.reg y).toNat c r → s.fb.pixel c r = false) → t.reg vf = 0) ∧
      RegsBut [vf] s t ∧ t.pc = s.pc + 2 ∧ Frame [.regs, .display] s t

/-- Drawing the same sprite twice at the same coordinates restores every pixel, and the second draw reports a collision
exactly when some drawn pixel was clear before the first (vector T5, R205; log entry 13: where every drawn pixel was
already set, the second draw reports none). -/
def Obligations.DrawTwiceRestoresThePixels : Prop :=
  ∀ (x y n : Nibble) (s : State), x ≠ vf → y ≠ vf → n.toNat = 0 ∨ s.iBase + n.toNat - 1 ≤ 0xFFF →
    ∃ (rows : List Byte) (t u : State), rows.length = n.toNat ∧
      (∀ k, k < n.toNat → s.memRead (s.iBase + k) = rows[k]?) ∧
      exec (.drw x y n) s = .next t ∧ exec (.drw x y n) t = .next u ∧
      (∀ c r, u.fb.pixel c r = s.fb.pixel c r) ∧
      (u.reg vf = 1 ↔ ∃ c r, spriteAt rows (s.reg x).toNat (s.reg y).toNat c r ∧ s.fb.pixel c r = false)

/-- The framebuffer is written by the draw and the clear instruction alone: no other instruction, and no other phase of a
cycle, changes a pixel (R42). -/
def Obligations.OnlyDrawAndClearWriteTheDisplay : Prop :=
  (∀ (i : Instr) (s t : State), (∀ x, i ≠ .cls x) → (∀ x y n, i ≠ .drw x y n) → exec i s = .next t →
    t.faulted = false → ∀ c r, t.fb.pixel c r = s.fb.pixel c r) ∧
  (∀ (s : State) (es : List Event) (due : Bool) (c : Fin 64) (r : Fin 32),
    ((s.applyEvents es).timerPhase due).endCycle.fb.pixel c r = s.fb.pixel c r)

/-! ## Keypad and timers -/

/-- `SKP Vx` and `SKNP Vx` with a key code: `PC` is `a + 4` when the latch is pressed, or not pressed, and `a + 2`
otherwise; nothing else changes (R220, R221). -/
def Obligations.KeySkipResults : Prop :=
  ∀ (x k : Nibble) (s : State), (s.reg x).toNat = k.toNat →
    (∃ t, exec (.skp x) s = .next t ∧ (s.key k = true → t.pc = s.pc + 4) ∧ (s.key k = false → t.pc = s.pc + 2) ∧
      Frame [] s t) ∧
    (∃ t, exec (.sknp x) s = .next t ∧ (s.key k = false → t.pc = s.pc + 4) ∧ (s.key k = true → t.pc = s.pc + 2) ∧
      Frame [] s t)

/-- `SKP Vx` and `SKNP Vx` with a value above 0xF halt the run with `KeyIndexOutOfBounds` (R255; the spec's decision
D11). -/
def Obligations.KeyIndexAboveFifteenHalts : Prop :=
  ∀ (x : Nibble) (s : State), 15 < (s.reg x).toNat →
    (∃ t, exec (.skp x) s = .next t ∧ t.mode = .halted (.fault (.keyIndexOutOfBounds (encode (.skp x)) s.pc)) ∧
      t.diag = s.diag) ∧
    (∃ t, exec (.sknp x) s = .next t ∧ t.mode = .halted (.fault (.keyIndexOutOfBounds (encode (.sknp x)) s.pc)) ∧
      t.diag = s.diag)

/-- `LD Vx, K`: the CORE awaits a key for `V[x]` with `PC = a + 2`; nothing else changes (R222; the spec's decision
D31). -/
def Obligations.WaitForKeySuspends : Prop :=
  ∀ (x : Nibble) (s : State), ∃ t, exec (.ldVxK x) s = .next t ∧
    t.mode = .awaitingKey x ∧ t.pc = s.pc + 2 ∧ Frame [.mode] s t

/-- The input phase: the last event of a key leaves its latch set after a press and clear after a release, a latch without
an event is kept, and nothing but latches, registers and the mode changes; where no wait ends (the CORE runs, or every press
is of a held key), latches alone change (R271; the spec's decision D16, log entry 19). -/
def Obligations.InputPhaseFollowsTheEvents : Prop :=
  ∀ (s : State) (es : List Event), (∀ e ∈ es, e ≠ .quit) →
    (∀ k fs gs, es = fs ++ .press k :: gs → (∀ e ∈ gs, e ≠ .press k ∧ e ≠ .release k) →
      (s.applyEvents es).key k = true) ∧
    (∀ k fs gs, es = fs ++ .release k :: gs → (∀ e ∈ gs, e ≠ .press k ∧ e ≠ .release k) →
      (s.applyEvents es).key k = false) ∧
    (∀ k, (∀ e ∈ es, e ≠ .press k ∧ e ≠ .release k) → (s.applyEvents es).key k = s.key k) ∧
    (s.applyEvents es).pc = s.pc ∧ Frame [.regs, .keys, .mode] s (s.applyEvents es) ∧
    ((∀ x, s.mode ≠ .awaitingKey x) ∨ NoFreshPress s.key es → Frame [.keys] s (s.applyEvents es))

/-- The first press that finds its latch released ends a wait: its key code is in `V[x]`, the CORE runs, and the same cycle
executes at `PC`. Releases and presses of held keys may stand before it; the events after it change latches alone (R223;
the spec's decision D16, log entry 19). -/
def Obligations.PressResumesAWait : Prop :=
  ∀ (s : State) (x k : Nibble) (fs gs : List Event), s.mode = .awaitingKey x →
    s.currentInput.events = fs ++ .press k :: gs → (∀ e ∈ fs ++ gs, e ≠ .quit) → NoFreshPress s.key fs →
    latchAfter k (s.key k) fs = false →
    ∃ u : State, step s = finishCycle s.currentInput.timerDue (executePhase u) ∧ u.mode = .running ∧
      (u.reg x).toNat = k.toNat ∧ RegsBut [x] s u ∧ u.pc = s.pc ∧ Frame [.regs, .keys, .mode] s u ∧
      ∀ j, u.key j = latchAfter j (s.key j) (fs ++ .press k :: gs)

/-- `Quit` ends the run at once: the events before it are applied, those after it are discarded, and the cycle executes no
instruction and decrements no timer (R274; the spec's decision D17). -/
def Obligations.QuitEndsTheRun : Prop :=
  ∀ (s : State) (es fs : List Event), (∀ r, s.mode ≠ .halted r) → s.currentInput.events = es ++ .quit :: fs →
    (∀ e ∈ es, e ≠ .quit) →
    ∃ t, step s = .next t ∧ t.mode = .halted .quit ∧ t.pc = s.pc ∧ Frame [.regs, .keys, .mode, .host] s t ∧
      (∀ j, t.reg j = (s.applyEvents es).reg j) ∧ (∀ k, t.key k = (s.applyEvents es).key k)

/-- `Halted` is final: any number of cycles leaves the whole state as it is (R258; the spec's decision D27). -/
def Obligations.HaltedIsFinal : Prop :=
  ∀ (n : Nat) (s : State) (r : HaltReason), s.mode = .halted r → core.run n s = .next s

/-- The timer moves: `V[x]` is `DT`, `DT` is `V[x]`, `ST` is `V[x]`; no flag (R224 to R226). -/
def Obligations.TimerMoveResults : Prop :=
  ∀ (x : Nibble) (s : State),
    (∃ t, exec (.ldVxDt x) s = .next t ∧ t.reg x = s.dt ∧ RegsBut [x] s t ∧ t.pc = s.pc + 2 ∧ Frame [.regs] s t) ∧
    (∃ t, exec (.ldDtVx x) s = .next t ∧ t.dt = s.reg x ∧ t.pc = s.pc + 2 ∧ Frame [.delay] s t) ∧
    (∃ t, exec (.ldStVx x) s = .next t ∧ t.st = s.reg x ∧ t.pc = s.pc + 2 ∧ Frame [.sound] s t)

/-- The timer phase after the execute phase left `t`: one less, floored at zero, when a tick is due and `t` is not halted;
no change when the run has ended or no tick is due; and nothing else but the model's own fields (R257, R272; the spec's
decisions D15 and D33). -/
def Obligations.TimersTickAfterTheInstruction : Prop :=
  ∀ s t : State, (∀ r, s.mode ≠ .halted r) → executePhase (s.applyEvents s.currentInput.events) = .next t →
    ∃ u, step s = .next u ∧ u.mode = t.mode ∧ u.diag = t.diag ∧
      (t.faulted = false → u.pc = t.pc ∧ Frame [.delay, .sound, .host] t u ∧
        (t.mode ≠ .halted .quit → s.currentInput.timerDue = true →
          u.dt.toNat = t.dt.toNat - 1 ∧ u.st.toNat = t.st.toNat - 1) ∧
        (t.mode = .halted .quit ∨ s.currentInput.timerDue = false → u.dt = t.dt ∧ u.st = t.st))

/-- A wait that no press ends: over any cycles whose events are releases and presses of keys already held, the CORE keeps
waiting with `PC` and registers unchanged while both timers count every tick down to zero and the latches follow the events
(R222, R223, R264, R272; the spec's decisions D15 and D16, log entry 19). -/
def Obligations.TimersCountDuringAWait : Prop :=
  ∀ (cs rest : List CycleInput) (s : State) (x : Nibble), s.mode = .awaitingKey x → s.inputs = cs ++ rest →
    (∀ e ∈ cs.flatMap CycleInput.events, e ≠ .quit) → NoFreshPress s.key (cs.flatMap CycleInput.events) →
    ∃ t : State, core.run cs.length s = .next t ∧ t.mode = .awaitingKey x ∧ t.inputs = rest ∧ t.pc = s.pc ∧
      t.dt.toNat = s.dt.toNat - ticksDue cs ∧ t.st.toNat = s.st.toNat - ticksDue cs ∧
      (∀ k, t.key k = latchAfter k (s.key k) (cs.flatMap CycleInput.events)) ∧
      Frame [.delay, .sound, .keys, .host] s t

/-! ## Unimplemented words -/

/-- Every unimplemented word is reported with its word and address, `PC` is `a + 2`, and nothing else changes (R240 to
R246, R256; the spec's decisions D12 and D22, log entry 8). -/
def Obligations.UnimplementedWordsAreReported : Prop :=
  ∀ (i : Instr) (s : State), reported i = true → ∃ t, exec i s = .next t ∧
    t.diag = s.diag ++ [⟨.unimplemented, encode i, s.pc⟩] ∧ t.pc = s.pc + 2 ∧ Frame [.log] s t

/-! ## Whole-machine rules -/

/-- The frame of every instruction that does not end the run: it writes only the parts of the state that the spec names
for it (R11; the spec's decision D4). -/
def Obligations.InstructionsWriteOnlyTheirParts : Prop :=
  ∀ (i : Instr) (s t : State), exec i s = .next t → (∀ r, t.mode ≠ .halted r) → Frame (mayWrite i) s t

/-- The latches are the host's: no instruction writes one, a cycle leaves each as its input phase did, and a cycle without
events keeps them all (R43, R271). -/
def Obligations.OnlyTheHostWritesTheKeypad : Prop :=
  (∀ (i : Instr) (s t : State) (k : Nibble), exec i s = .next t → t.faulted = false → t.key k = s.key k) ∧
  (∀ (s t : State) (k : Nibble), (∀ r, s.mode ≠ .halted r) → step s = .next t → t.faulted = false →
    t.key k = (s.applyEvents s.currentInput.events).key k) ∧
  (∀ (s t : State) (k : Nibble), s.currentInput.events = [] → step s = .next t → t.faulted = false → t.key k = s.key k)

/-- No instruction reads `ST`: with another sound timer an instruction does the same to the rest, and it keeps that timer
or, for `LD ST, Vx`, replaces it (R40, R49). -/
def Obligations.NoInstructionReadsTheSoundTimer : Prop :=
  ∀ (i : Instr) (s t : State) (b : Byte), exec i s = .next t → t.faulted = false →
    ((∀ x, i ≠ .ldStVx x) → exec i (s.setSt b) = .next (t.setSt b)) ∧
    ((∃ x, i = .ldStVx x) → exec i (s.setSt b) = .next t)

/-- `Diag` is append-only and grows by at most one entry a cycle (R48, R256; the spec's decision D22). -/
def Obligations.DiagnosticLogOnlyGrows : Prop :=
  ∀ s t : State, step s = .next t → ∃ es : List DiagEntry, t.diag = s.diag ++ es ∧ es.length ≤ 1
end

