-- ==== Sys2Proof/Laws/Decode.lean ====
section
/-! SUPPORT. The fields of encoded words (30_encoding.md R103, R104), and the two bytes of a word (20_memory.md R72). -/

namespace Sys2Proof

/-! ## Bits of a concatenation, at the widths of the CORE -/

theorem getLsbD_wordA (a : Nibble) (b : Addr12) (k : Nat) :
    (wordA a b).getLsbD k = if k < 12 then b.getLsbD k else a.getLsbD (k - 12) := BitVec.getLsbD_append

theorem getLsbD_addrOfXNN (a : Nibble) (b : Byte) (k : Nat) :
    (addrOfXNN a b).getLsbD k = if k < 8 then b.getLsbD k else a.getLsbD (k - 8) := BitVec.getLsbD_append

theorem getLsbD_byteOfYN (a b : Nibble) (k : Nat) :
    (byteOfYN a b).getLsbD k = if k < 4 then b.getLsbD k else a.getLsbD (k - 4) := BitVec.getLsbD_append

theorem getLsbD_wordOfBytes (a b : Byte) (k : Nat) :
    (wordOfBytes a b).getLsbD k = if k < 8 then b.getLsbD k else a.getLsbD (k - 8) := BitVec.getLsbD_append

/-! ## Form A -/

@[simp] theorem fieldOp_wordA (op : Nibble) (nnn : Addr12) : fieldOp (wordA op nnn) = op := by
  apply BitVec.eq_of_getLsbD_eq
  intro k hk
  simp [-BitVec.getLsbD_eq_getElem, fieldOp, getLsbD_wordA, hk]

@[simp] theorem fieldNNN_wordA (op : Nibble) (nnn : Addr12) : fieldNNN (wordA op nnn) = nnn := by
  apply BitVec.eq_of_getLsbD_eq
  intro k hk
  simp [-BitVec.getLsbD_eq_getElem, fieldNNN, getLsbD_wordA, hk]

@[simp] theorem fieldX_wordA (op : Nibble) (nnn : Addr12) : fieldX (wordA op nnn) = nnn.extractLsb' 8 4 := by
  apply BitVec.eq_of_getLsbD_eq
  intro k hk
  simp [-BitVec.getLsbD_eq_getElem, fieldX, getLsbD_wordA, hk, show 8 + k < 12 by omega]

@[simp] theorem fieldNN_wordA (op : Nibble) (nnn : Addr12) : fieldNN (wordA op nnn) = nnn.extractLsb' 0 8 := by
  apply BitVec.eq_of_getLsbD_eq
  intro k hk
  simp [-BitVec.getLsbD_eq_getElem, fieldNN, getLsbD_wordA, hk, show k < 12 by omega]

/-! ## Form XNN -/

@[simp] theorem fieldOp_wordXNN (op x : Nibble) (nn : Byte) : fieldOp (wordXNN op x nn) = op := fieldOp_wordA _ _

@[simp] theorem fieldX_wordXNN (op x : Nibble) (nn : Byte) : fieldX (wordXNN op x nn) = x := by
  apply BitVec.eq_of_getLsbD_eq
  intro k hk
  simp [-BitVec.getLsbD_eq_getElem, fieldX, wordXNN, getLsbD_wordA, getLsbD_addrOfXNN, hk, show 8 + k < 12 by omega]

@[simp] theorem fieldNN_wordXNN (op x : Nibble) (nn : Byte) : fieldNN (wordXNN op x nn) = nn := by
  apply BitVec.eq_of_getLsbD_eq
  intro k hk
  simp [-BitVec.getLsbD_eq_getElem, fieldNN, wordXNN, getLsbD_wordA, getLsbD_addrOfXNN, hk, show k < 12 by omega]

/-! ## Form XYN -/

@[simp] theorem fieldOp_wordXYN (op x y n : Nibble) : fieldOp (wordXYN op x y n) = op := fieldOp_wordA _ _

@[simp] theorem fieldX_wordXYN (op x y n : Nibble) : fieldX (wordXYN op x y n) = x := fieldX_wordXNN _ _ _

@[simp] theorem fieldY_wordXYN (op x y n : Nibble) : fieldY (wordXYN op x y n) = y := by
  apply BitVec.eq_of_getLsbD_eq
  intro k hk
  simp [-BitVec.getLsbD_eq_getElem, fieldY, wordXYN, wordXNN, getLsbD_wordA, getLsbD_addrOfXNN, getLsbD_byteOfYN, hk, show 4 + k < 12 by omega, show 4 + k < 8 by omega]

@[simp] theorem fieldN_wordXYN (op x y n : Nibble) : fieldN (wordXYN op x y n) = n := by
  apply BitVec.eq_of_getLsbD_eq
  intro k hk
  simp [-BitVec.getLsbD_eq_getElem, fieldN, wordXYN, wordXNN, getLsbD_wordA, getLsbD_addrOfXNN, getLsbD_byteOfYN, hk, show k < 12 by omega, show k < 8 by omega]

/-! ## A word is made of its fields and of its bytes -/

/-- The family and `NNN` make the word. -/
theorem wordA_fields (w : Word) : wordA (fieldOp w) (fieldNNN w) = w := by
  apply BitVec.eq_of_getLsbD_eq
  intro k hk
  by_cases h : k < 12
  · simp [-BitVec.getLsbD_eq_getElem, getLsbD_wordA, fieldOp, fieldNNN, h]
  · simp [-BitVec.getLsbD_eq_getElem, getLsbD_wordA, fieldOp, fieldNNN, h, show k - 12 < 4 by omega, show 12 + (k - 12) = k by omega]

/-- `X` and `NN` make `NNN`. -/
theorem addrOfXNN_fields (w : Word) : addrOfXNN (fieldX w) (fieldNN w) = fieldNNN w := by
  apply BitVec.eq_of_getLsbD_eq
  intro k hk
  by_cases h : k < 8
  · simp [-BitVec.getLsbD_eq_getElem, getLsbD_addrOfXNN, fieldX, fieldNN, fieldNNN, h, hk]
  · simp [-BitVec.getLsbD_eq_getElem, getLsbD_addrOfXNN, fieldX, fieldNN, fieldNNN, h, hk, show k - 8 < 4 by omega, show 8 + (k - 8) = k by omega]

/-- `Y` and `N` make `NN`. -/
theorem byteOfYN_fields (w : Word) : byteOfYN (fieldY w) (fieldN w) = fieldNN w := by
  apply BitVec.eq_of_getLsbD_eq
  intro k hk
  by_cases h : k < 4
  · simp [-BitVec.getLsbD_eq_getElem, getLsbD_byteOfYN, fieldY, fieldN, fieldNN, h, hk]
  · simp [-BitVec.getLsbD_eq_getElem, getLsbD_byteOfYN, fieldY, fieldN, fieldNN, h, hk, show k - 4 < 4 by omega, show 4 + (k - 4) = k by omega]

/-- The family, `X` and `NN` make the word. -/
theorem wordXNN_fields (w : Word) : wordXNN (fieldOp w) (fieldX w) (fieldNN w) = w := by
  rw [wordXNN, addrOfXNN_fields, wordA_fields]

/-- The four nibbles make the word. -/
theorem wordXYN_fields (w : Word) : wordXYN (fieldOp w) (fieldX w) (fieldY w) (fieldN w) = w := by
  rw [wordXYN, byteOfYN_fields, wordXNN_fields]

/-- The two bytes of a word make it again. -/
theorem wordOfBytes_bytes (w : Word) : wordOfBytes (highByte w) (lowByte w) = w := by
  apply BitVec.eq_of_getLsbD_eq
  intro k hk
  by_cases h : k < 8
  · simp [-BitVec.getLsbD_eq_getElem, getLsbD_wordOfBytes, highByte, lowByte, h]
  · simp [-BitVec.getLsbD_eq_getElem, getLsbD_wordOfBytes, highByte, lowByte, h, show k - 8 < 8 by omega, show 8 + (k - 8) = k by omega]

@[simp] theorem highByte_wordOfBytes (hi lo : Byte) : highByte (wordOfBytes hi lo) = hi := by
  apply BitVec.eq_of_getLsbD_eq
  intro k hk
  simp [-BitVec.getLsbD_eq_getElem, highByte, getLsbD_wordOfBytes, hk]

@[simp] theorem lowByte_wordOfBytes (hi lo : Byte) : lowByte (wordOfBytes hi lo) = lo := by
  apply BitVec.eq_of_getLsbD_eq
  intro k hk
  simp [-BitVec.getLsbD_eq_getElem, lowByte, getLsbD_wordOfBytes, hk]

end Sys2Proof
end

