-- ==== Sys2Proof/Laws/State.lean ====
section
/-! SUPPORT. One lemma per field per update of the state: what the update writes, and that it leaves the rest. -/

namespace Sys2Proof.Machine

/-! ## The widths of `I` and `PC` -/

@[simp] theorem iWidth_eq : Config.iWidth = 16 := rfl
@[simp] theorem pcWidth_eq : Config.pcWidth = 16 := rfl

/-! ## `setReg` -/

@[simp] theorem State.setReg_mem (s : State) (x : Nibble) (b : Byte) : (s.setReg x b).mem = s.mem := rfl
@[simp] theorem State.setReg_v (s : State) (x : Nibble) (b : Byte) : (s.setReg x b).v = s.v.set x.toNat b x.isLt := rfl
@[simp] theorem State.setReg_i (s : State) (x : Nibble) (b : Byte) : (s.setReg x b).i = s.i := rfl
@[simp] theorem State.setReg_pc (s : State) (x : Nibble) (b : Byte) : (s.setReg x b).pc = s.pc := rfl
@[simp] theorem State.setReg_stack (s : State) (x : Nibble) (b : Byte) : (s.setReg x b).stack = s.stack := rfl
@[simp] theorem State.setReg_dt (s : State) (x : Nibble) (b : Byte) : (s.setReg x b).dt = s.dt := rfl
@[simp] theorem State.setReg_st (s : State) (x : Nibble) (b : Byte) : (s.setReg x b).st = s.st := rfl
@[simp] theorem State.setReg_fb (s : State) (x : Nibble) (b : Byte) : (s.setReg x b).fb = s.fb := rfl
@[simp] theorem State.setReg_k (s : State) (x : Nibble) (b : Byte) : (s.setReg x b).k = s.k := rfl
@[simp] theorem State.setReg_mode (s : State) (x : Nibble) (b : Byte) : (s.setReg x b).mode = s.mode := rfl
@[simp] theorem State.setReg_diag (s : State) (x : Nibble) (b : Byte) : (s.setReg x b).diag = s.diag := rfl
@[simp] theorem State.setReg_inputs (s : State) (x : Nibble) (b : Byte) : (s.setReg x b).inputs = s.inputs := rfl
@[simp] theorem State.setReg_cycle (s : State) (x : Nibble) (b : Byte) : (s.setReg x b).cycle = s.cycle := rfl

/-! ## `setKey` -/

@[simp] theorem State.setKey_mem (s : State) (x : Nibble) (b : Bool) : (s.setKey x b).mem = s.mem := rfl
@[simp] theorem State.setKey_v (s : State) (x : Nibble) (b : Bool) : (s.setKey x b).v = s.v := rfl
@[simp] theorem State.setKey_i (s : State) (x : Nibble) (b : Bool) : (s.setKey x b).i = s.i := rfl
@[simp] theorem State.setKey_pc (s : State) (x : Nibble) (b : Bool) : (s.setKey x b).pc = s.pc := rfl
@[simp] theorem State.setKey_stack (s : State) (x : Nibble) (b : Bool) : (s.setKey x b).stack = s.stack := rfl
@[simp] theorem State.setKey_dt (s : State) (x : Nibble) (b : Bool) : (s.setKey x b).dt = s.dt := rfl
@[simp] theorem State.setKey_st (s : State) (x : Nibble) (b : Bool) : (s.setKey x b).st = s.st := rfl
@[simp] theorem State.setKey_fb (s : State) (x : Nibble) (b : Bool) : (s.setKey x b).fb = s.fb := rfl
@[simp] theorem State.setKey_k (s : State) (x : Nibble) (b : Bool) : (s.setKey x b).k = s.k.set x.toNat b x.isLt := rfl
@[simp] theorem State.setKey_mode (s : State) (x : Nibble) (b : Bool) : (s.setKey x b).mode = s.mode := rfl
@[simp] theorem State.setKey_diag (s : State) (x : Nibble) (b : Bool) : (s.setKey x b).diag = s.diag := rfl
@[simp] theorem State.setKey_inputs (s : State) (x : Nibble) (b : Bool) : (s.setKey x b).inputs = s.inputs := rfl
@[simp] theorem State.setKey_cycle (s : State) (x : Nibble) (b : Bool) : (s.setKey x b).cycle = s.cycle := rfl

/-! ## `setPc` -/

@[simp] theorem State.setPc_mem (s : State) (a : Word) : (s.setPc a).mem = s.mem := rfl
@[simp] theorem State.setPc_v (s : State) (a : Word) : (s.setPc a).v = s.v := rfl
@[simp] theorem State.setPc_i (s : State) (a : Word) : (s.setPc a).i = s.i := rfl
@[simp] theorem State.setPc_pc (s : State) (a : Word) : (s.setPc a).pc = a := rfl
@[simp] theorem State.setPc_stack (s : State) (a : Word) : (s.setPc a).stack = s.stack := rfl
@[simp] theorem State.setPc_dt (s : State) (a : Word) : (s.setPc a).dt = s.dt := rfl
@[simp] theorem State.setPc_st (s : State) (a : Word) : (s.setPc a).st = s.st := rfl
@[simp] theorem State.setPc_fb (s : State) (a : Word) : (s.setPc a).fb = s.fb := rfl
@[simp] theorem State.setPc_k (s : State) (a : Word) : (s.setPc a).k = s.k := rfl
@[simp] theorem State.setPc_mode (s : State) (a : Word) : (s.setPc a).mode = s.mode := rfl
@[simp] theorem State.setPc_diag (s : State) (a : Word) : (s.setPc a).diag = s.diag := rfl
@[simp] theorem State.setPc_inputs (s : State) (a : Word) : (s.setPc a).inputs = s.inputs := rfl
@[simp] theorem State.setPc_cycle (s : State) (a : Word) : (s.setPc a).cycle = s.cycle := rfl

/-! ## `setI` -/

@[simp] theorem State.setI_mem (s : State) (a : Word) : (s.setI a).mem = s.mem := rfl
@[simp] theorem State.setI_v (s : State) (a : Word) : (s.setI a).v = s.v := rfl
@[simp] theorem State.setI_i (s : State) (a : Word) : (s.setI a).i = a := rfl
@[simp] theorem State.setI_pc (s : State) (a : Word) : (s.setI a).pc = s.pc := rfl
@[simp] theorem State.setI_stack (s : State) (a : Word) : (s.setI a).stack = s.stack := rfl
@[simp] theorem State.setI_dt (s : State) (a : Word) : (s.setI a).dt = s.dt := rfl
@[simp] theorem State.setI_st (s : State) (a : Word) : (s.setI a).st = s.st := rfl
@[simp] theorem State.setI_fb (s : State) (a : Word) : (s.setI a).fb = s.fb := rfl
@[simp] theorem State.setI_k (s : State) (a : Word) : (s.setI a).k = s.k := rfl
@[simp] theorem State.setI_mode (s : State) (a : Word) : (s.setI a).mode = s.mode := rfl
@[simp] theorem State.setI_diag (s : State) (a : Word) : (s.setI a).diag = s.diag := rfl
@[simp] theorem State.setI_inputs (s : State) (a : Word) : (s.setI a).inputs = s.inputs := rfl
@[simp] theorem State.setI_cycle (s : State) (a : Word) : (s.setI a).cycle = s.cycle := rfl

/-! ## `setDt` -/

@[simp] theorem State.setDt_mem (s : State) (b : Byte) : (s.setDt b).mem = s.mem := rfl
@[simp] theorem State.setDt_v (s : State) (b : Byte) : (s.setDt b).v = s.v := rfl
@[simp] theorem State.setDt_i (s : State) (b : Byte) : (s.setDt b).i = s.i := rfl
@[simp] theorem State.setDt_pc (s : State) (b : Byte) : (s.setDt b).pc = s.pc := rfl
@[simp] theorem State.setDt_stack (s : State) (b : Byte) : (s.setDt b).stack = s.stack := rfl
@[simp] theorem State.setDt_dt (s : State) (b : Byte) : (s.setDt b).dt = b := rfl
@[simp] theorem State.setDt_st (s : State) (b : Byte) : (s.setDt b).st = s.st := rfl
@[simp] theorem State.setDt_fb (s : State) (b : Byte) : (s.setDt b).fb = s.fb := rfl
@[simp] theorem State.setDt_k (s : State) (b : Byte) : (s.setDt b).k = s.k := rfl
@[simp] theorem State.setDt_mode (s : State) (b : Byte) : (s.setDt b).mode = s.mode := rfl
@[simp] theorem State.setDt_diag (s : State) (b : Byte) : (s.setDt b).diag = s.diag := rfl
@[simp] theorem State.setDt_inputs (s : State) (b : Byte) : (s.setDt b).inputs = s.inputs := rfl
@[simp] theorem State.setDt_cycle (s : State) (b : Byte) : (s.setDt b).cycle = s.cycle := rfl

/-! ## `setSt` -/

@[simp] theorem State.setSt_mem (s : State) (b : Byte) : (s.setSt b).mem = s.mem := rfl
@[simp] theorem State.setSt_v (s : State) (b : Byte) : (s.setSt b).v = s.v := rfl
@[simp] theorem State.setSt_i (s : State) (b : Byte) : (s.setSt b).i = s.i := rfl
@[simp] theorem State.setSt_pc (s : State) (b : Byte) : (s.setSt b).pc = s.pc := rfl
@[simp] theorem State.setSt_stack (s : State) (b : Byte) : (s.setSt b).stack = s.stack := rfl
@[simp] theorem State.setSt_dt (s : State) (b : Byte) : (s.setSt b).dt = s.dt := rfl
@[simp] theorem State.setSt_st (s : State) (b : Byte) : (s.setSt b).st = b := rfl
@[simp] theorem State.setSt_fb (s : State) (b : Byte) : (s.setSt b).fb = s.fb := rfl
@[simp] theorem State.setSt_k (s : State) (b : Byte) : (s.setSt b).k = s.k := rfl
@[simp] theorem State.setSt_mode (s : State) (b : Byte) : (s.setSt b).mode = s.mode := rfl
@[simp] theorem State.setSt_diag (s : State) (b : Byte) : (s.setSt b).diag = s.diag := rfl
@[simp] theorem State.setSt_inputs (s : State) (b : Byte) : (s.setSt b).inputs = s.inputs := rfl
@[simp] theorem State.setSt_cycle (s : State) (b : Byte) : (s.setSt b).cycle = s.cycle := rfl

/-! ## `setMode` -/

@[simp] theorem State.setMode_mem (s : State) (m : Mode) : (s.setMode m).mem = s.mem := rfl
@[simp] theorem State.setMode_v (s : State) (m : Mode) : (s.setMode m).v = s.v := rfl
@[simp] theorem State.setMode_i (s : State) (m : Mode) : (s.setMode m).i = s.i := rfl
@[simp] theorem State.setMode_pc (s : State) (m : Mode) : (s.setMode m).pc = s.pc := rfl
@[simp] theorem State.setMode_stack (s : State) (m : Mode) : (s.setMode m).stack = s.stack := rfl
@[simp] theorem State.setMode_dt (s : State) (m : Mode) : (s.setMode m).dt = s.dt := rfl
@[simp] theorem State.setMode_st (s : State) (m : Mode) : (s.setMode m).st = s.st := rfl
@[simp] theorem State.setMode_fb (s : State) (m : Mode) : (s.setMode m).fb = s.fb := rfl
@[simp] theorem State.setMode_k (s : State) (m : Mode) : (s.setMode m).k = s.k := rfl
@[simp] theorem State.setMode_mode (s : State) (m : Mode) : (s.setMode m).mode = m := rfl
@[simp] theorem State.setMode_diag (s : State) (m : Mode) : (s.setMode m).diag = s.diag := rfl
@[simp] theorem State.setMode_inputs (s : State) (m : Mode) : (s.setMode m).inputs = s.inputs := rfl
@[simp] theorem State.setMode_cycle (s : State) (m : Mode) : (s.setMode m).cycle = s.cycle := rfl

/-! ## `setFb` -/

@[simp] theorem State.setFb_mem (s : State) (f : FrameBuffer) : (s.setFb f).mem = s.mem := rfl
@[simp] theorem State.setFb_v (s : State) (f : FrameBuffer) : (s.setFb f).v = s.v := rfl
@[simp] theorem State.setFb_i (s : State) (f : FrameBuffer) : (s.setFb f).i = s.i := rfl
@[simp] theorem State.setFb_pc (s : State) (f : FrameBuffer) : (s.setFb f).pc = s.pc := rfl
@[simp] theorem State.setFb_stack (s : State) (f : FrameBuffer) : (s.setFb f).stack = s.stack := rfl
@[simp] theorem State.setFb_dt (s : State) (f : FrameBuffer) : (s.setFb f).dt = s.dt := rfl
@[simp] theorem State.setFb_st (s : State) (f : FrameBuffer) : (s.setFb f).st = s.st := rfl
@[simp] theorem State.setFb_fb (s : State) (f : FrameBuffer) : (s.setFb f).fb = f := rfl
@[simp] theorem State.setFb_k (s : State) (f : FrameBuffer) : (s.setFb f).k = s.k := rfl
@[simp] theorem State.setFb_mode (s : State) (f : FrameBuffer) : (s.setFb f).mode = s.mode := rfl
@[simp] theorem State.setFb_diag (s : State) (f : FrameBuffer) : (s.setFb f).diag = s.diag := rfl
@[simp] theorem State.setFb_inputs (s : State) (f : FrameBuffer) : (s.setFb f).inputs = s.inputs := rfl
@[simp] theorem State.setFb_cycle (s : State) (f : FrameBuffer) : (s.setFb f).cycle = s.cycle := rfl

/-! ## `advance` -/

@[simp] theorem State.advance_mem (s : State) : s.advance.mem = s.mem := rfl
@[simp] theorem State.advance_v (s : State) : s.advance.v = s.v := rfl
@[simp] theorem State.advance_i (s : State) : s.advance.i = s.i := rfl
@[simp] theorem State.advance_pc (s : State) : s.advance.pc = s.pc + 2 := rfl
@[simp] theorem State.advance_stack (s : State) : s.advance.stack = s.stack := rfl
@[simp] theorem State.advance_dt (s : State) : s.advance.dt = s.dt := rfl
@[simp] theorem State.advance_st (s : State) : s.advance.st = s.st := rfl
@[simp] theorem State.advance_fb (s : State) : s.advance.fb = s.fb := rfl
@[simp] theorem State.advance_k (s : State) : s.advance.k = s.k := rfl
@[simp] theorem State.advance_mode (s : State) : s.advance.mode = s.mode := rfl
@[simp] theorem State.advance_diag (s : State) : s.advance.diag = s.diag := rfl
@[simp] theorem State.advance_inputs (s : State) : s.advance.inputs = s.inputs := rfl
@[simp] theorem State.advance_cycle (s : State) : s.advance.cycle = s.cycle := rfl

/-! ## `raiseFault` -/

@[simp] theorem State.raiseFault_mem (s : State) (f : Fault) : (s.raiseFault f).mem = s.mem := rfl
@[simp] theorem State.raiseFault_v (s : State) (f : Fault) : (s.raiseFault f).v = s.v := rfl
@[simp] theorem State.raiseFault_i (s : State) (f : Fault) : (s.raiseFault f).i = s.i := rfl
@[simp] theorem State.raiseFault_pc (s : State) (f : Fault) : (s.raiseFault f).pc = s.pc := rfl
@[simp] theorem State.raiseFault_stack (s : State) (f : Fault) : (s.raiseFault f).stack = s.stack := rfl
@[simp] theorem State.raiseFault_dt (s : State) (f : Fault) : (s.raiseFault f).dt = s.dt := rfl
@[simp] theorem State.raiseFault_st (s : State) (f : Fault) : (s.raiseFault f).st = s.st := rfl
@[simp] theorem State.raiseFault_fb (s : State) (f : Fault) : (s.raiseFault f).fb = s.fb := rfl
@[simp] theorem State.raiseFault_k (s : State) (f : Fault) : (s.raiseFault f).k = s.k := rfl
@[simp] theorem State.raiseFault_mode (s : State) (f : Fault) : (s.raiseFault f).mode = .halted (.fault f) := rfl
@[simp] theorem State.raiseFault_diag (s : State) (f : Fault) : (s.raiseFault f).diag = s.diag := rfl
@[simp] theorem State.raiseFault_inputs (s : State) (f : Fault) : (s.raiseFault f).inputs = s.inputs := rfl
@[simp] theorem State.raiseFault_cycle (s : State) (f : Fault) : (s.raiseFault f).cycle = s.cycle := rfl

/-! ## `report` -/

@[simp] theorem State.report_mem (s : State) (kd : DiagKind) (w a : Word) : (s.report kd w a).mem = s.mem := rfl
@[simp] theorem State.report_v (s : State) (kd : DiagKind) (w a : Word) : (s.report kd w a).v = s.v := rfl
@[simp] theorem State.report_i (s : State) (kd : DiagKind) (w a : Word) : (s.report kd w a).i = s.i := rfl
@[simp] theorem State.report_pc (s : State) (kd : DiagKind) (w a : Word) : (s.report kd w a).pc = s.pc := rfl
@[simp] theorem State.report_stack (s : State) (kd : DiagKind) (w a : Word) : (s.report kd w a).stack = s.stack := rfl
@[simp] theorem State.report_dt (s : State) (kd : DiagKind) (w a : Word) : (s.report kd w a).dt = s.dt := rfl
@[simp] theorem State.report_st (s : State) (kd : DiagKind) (w a : Word) : (s.report kd w a).st = s.st := rfl
@[simp] theorem State.report_fb (s : State) (kd : DiagKind) (w a : Word) : (s.report kd w a).fb = s.fb := rfl
@[simp] theorem State.report_k (s : State) (kd : DiagKind) (w a : Word) : (s.report kd w a).k = s.k := rfl
@[simp] theorem State.report_mode (s : State) (kd : DiagKind) (w a : Word) : (s.report kd w a).mode = s.mode := rfl
@[simp] theorem State.report_diag (s : State) (kd : DiagKind) (w a : Word) : (s.report kd w a).diag = s.diag ++ [⟨kd, w, a⟩] := rfl
@[simp] theorem State.report_inputs (s : State) (kd : DiagKind) (w a : Word) : (s.report kd w a).inputs = s.inputs := rfl
@[simp] theorem State.report_cycle (s : State) (kd : DiagKind) (w a : Word) : (s.report kd w a).cycle = s.cycle := rfl

/-! ## `endCycle` -/

@[simp] theorem State.endCycle_mem (s : State) : s.endCycle.mem = s.mem := rfl
@[simp] theorem State.endCycle_v (s : State) : s.endCycle.v = s.v := rfl
@[simp] theorem State.endCycle_i (s : State) : s.endCycle.i = s.i := rfl
@[simp] theorem State.endCycle_pc (s : State) : s.endCycle.pc = s.pc := rfl
@[simp] theorem State.endCycle_stack (s : State) : s.endCycle.stack = s.stack := rfl
@[simp] theorem State.endCycle_dt (s : State) : s.endCycle.dt = s.dt := rfl
@[simp] theorem State.endCycle_st (s : State) : s.endCycle.st = s.st := rfl
@[simp] theorem State.endCycle_fb (s : State) : s.endCycle.fb = s.fb := rfl
@[simp] theorem State.endCycle_k (s : State) : s.endCycle.k = s.k := rfl
@[simp] theorem State.endCycle_mode (s : State) : s.endCycle.mode = s.mode := rfl
@[simp] theorem State.endCycle_diag (s : State) : s.endCycle.diag = s.diag := rfl
@[simp] theorem State.endCycle_inputs (s : State) : s.endCycle.inputs = s.inputs.tail := rfl
@[simp] theorem State.endCycle_cycle (s : State) : s.endCycle.cycle = s.cycle + 1 := rfl

/-! ## `withFont` -/

@[simp] theorem State.withFont_mem (s : State) (font : List Byte) : (s.withFont font).mem = s.mem.writeBytes Config.fontBase font := rfl
@[simp] theorem State.withFont_v (s : State) (font : List Byte) : (s.withFont font).v = s.v := rfl
@[simp] theorem State.withFont_i (s : State) (font : List Byte) : (s.withFont font).i = s.i := rfl
@[simp] theorem State.withFont_pc (s : State) (font : List Byte) : (s.withFont font).pc = s.pc := rfl
@[simp] theorem State.withFont_stack (s : State) (font : List Byte) : (s.withFont font).stack = s.stack := rfl
@[simp] theorem State.withFont_dt (s : State) (font : List Byte) : (s.withFont font).dt = s.dt := rfl
@[simp] theorem State.withFont_st (s : State) (font : List Byte) : (s.withFont font).st = s.st := rfl
@[simp] theorem State.withFont_fb (s : State) (font : List Byte) : (s.withFont font).fb = s.fb := rfl
@[simp] theorem State.withFont_k (s : State) (font : List Byte) : (s.withFont font).k = s.k := rfl
@[simp] theorem State.withFont_mode (s : State) (font : List Byte) : (s.withFont font).mode = s.mode := rfl
@[simp] theorem State.withFont_diag (s : State) (font : List Byte) : (s.withFont font).diag = s.diag := rfl
@[simp] theorem State.withFont_inputs (s : State) (font : List Byte) : (s.withFont font).inputs = s.inputs := rfl
@[simp] theorem State.withFont_cycle (s : State) (font : List Byte) : (s.withFont font).cycle = s.cycle := rfl

/-! ## `skipIf`, `writeResultFlag` and `loadRegs` -/

@[simp] theorem State.skipIf_mem (s : State) (c : Bool) : (s.skipIf c).mem = s.mem := by cases c <;> rfl
@[simp] theorem State.skipIf_v (s : State) (c : Bool) : (s.skipIf c).v = s.v := by cases c <;> rfl
@[simp] theorem State.skipIf_i (s : State) (c : Bool) : (s.skipIf c).i = s.i := by cases c <;> rfl
@[simp] theorem State.skipIf_stack (s : State) (c : Bool) : (s.skipIf c).stack = s.stack := by cases c <;> rfl
@[simp] theorem State.skipIf_dt (s : State) (c : Bool) : (s.skipIf c).dt = s.dt := by cases c <;> rfl
@[simp] theorem State.skipIf_st (s : State) (c : Bool) : (s.skipIf c).st = s.st := by cases c <;> rfl
@[simp] theorem State.skipIf_fb (s : State) (c : Bool) : (s.skipIf c).fb = s.fb := by cases c <;> rfl
@[simp] theorem State.skipIf_k (s : State) (c : Bool) : (s.skipIf c).k = s.k := by cases c <;> rfl
@[simp] theorem State.skipIf_mode (s : State) (c : Bool) : (s.skipIf c).mode = s.mode := by cases c <;> rfl
@[simp] theorem State.skipIf_diag (s : State) (c : Bool) : (s.skipIf c).diag = s.diag := by cases c <;> rfl
@[simp] theorem State.skipIf_inputs (s : State) (c : Bool) : (s.skipIf c).inputs = s.inputs := by cases c <;> rfl
@[simp] theorem State.skipIf_cycle (s : State) (c : Bool) : (s.skipIf c).cycle = s.cycle := by cases c <;> rfl
@[simp] theorem State.skipIf_pc (s : State) (c : Bool) : (s.skipIf c).pc = if c then s.pc + 4 else s.pc + 2 := by cases c <;> rfl

@[simp] theorem writeResultFlag_mem (o : Config.FlagOrder) (x : Nibble) (r : Byte) (g : Bool) (s : State) :
    (writeResultFlag o x r g s).mem = s.mem := by cases o <;> rfl
@[simp] theorem writeResultFlag_i (o : Config.FlagOrder) (x : Nibble) (r : Byte) (g : Bool) (s : State) :
    (writeResultFlag o x r g s).i = s.i := by cases o <;> rfl
@[simp] theorem writeResultFlag_pc (o : Config.FlagOrder) (x : Nibble) (r : Byte) (g : Bool) (s : State) :
    (writeResultFlag o x r g s).pc = s.pc := by cases o <;> rfl
@[simp] theorem writeResultFlag_stack (o : Config.FlagOrder) (x : Nibble) (r : Byte) (g : Bool) (s : State) :
    (writeResultFlag o x r g s).stack = s.stack := by cases o <;> rfl
@[simp] theorem writeResultFlag_dt (o : Config.FlagOrder) (x : Nibble) (r : Byte) (g : Bool) (s : State) :
    (writeResultFlag o x r g s).dt = s.dt := by cases o <;> rfl
@[simp] theorem writeResultFlag_st (o : Config.FlagOrder) (x : Nibble) (r : Byte) (g : Bool) (s : State) :
    (writeResultFlag o x r g s).st = s.st := by cases o <;> rfl
@[simp] theorem writeResultFlag_fb (o : Config.FlagOrder) (x : Nibble) (r : Byte) (g : Bool) (s : State) :
    (writeResultFlag o x r g s).fb = s.fb := by cases o <;> rfl
@[simp] theorem writeResultFlag_k (o : Config.FlagOrder) (x : Nibble) (r : Byte) (g : Bool) (s : State) :
    (writeResultFlag o x r g s).k = s.k := by cases o <;> rfl
@[simp] theorem writeResultFlag_mode (o : Config.FlagOrder) (x : Nibble) (r : Byte) (g : Bool) (s : State) :
    (writeResultFlag o x r g s).mode = s.mode := by cases o <;> rfl
@[simp] theorem writeResultFlag_diag (o : Config.FlagOrder) (x : Nibble) (r : Byte) (g : Bool) (s : State) :
    (writeResultFlag o x r g s).diag = s.diag := by cases o <;> rfl
@[simp] theorem writeResultFlag_inputs (o : Config.FlagOrder) (x : Nibble) (r : Byte) (g : Bool) (s : State) :
    (writeResultFlag o x r g s).inputs = s.inputs := by cases o <;> rfl
@[simp] theorem writeResultFlag_cycle (o : Config.FlagOrder) (x : Nibble) (r : Byte) (g : Bool) (s : State) :
    (writeResultFlag o x r g s).cycle = s.cycle := by cases o <;> rfl

@[simp] theorem State.loadRegs_mem (n : Nat) (bs : List Byte) (s : State) : (s.loadRegs n bs).mem = s.mem := by
  induction bs generalizing n s with
  | nil => rfl
  | cons b bs ih => simp [State.loadRegs, ih]
@[simp] theorem State.loadRegs_i (n : Nat) (bs : List Byte) (s : State) : (s.loadRegs n bs).i = s.i := by
  induction bs generalizing n s with
  | nil => rfl
  | cons b bs ih => simp [State.loadRegs, ih]
@[simp] theorem State.loadRegs_pc (n : Nat) (bs : List Byte) (s : State) : (s.loadRegs n bs).pc = s.pc := by
  induction bs generalizing n s with
  | nil => rfl
  | cons b bs ih => simp [State.loadRegs, ih]
@[simp] theorem State.loadRegs_stack (n : Nat) (bs : List Byte) (s : State) : (s.loadRegs n bs).stack = s.stack := by
  induction bs generalizing n s with
  | nil => rfl
  | cons b bs ih => simp [State.loadRegs, ih]
@[simp] theorem State.loadRegs_dt (n : Nat) (bs : List Byte) (s : State) : (s.loadRegs n bs).dt = s.dt := by
  induction bs generalizing n s with
  | nil => rfl
  | cons b bs ih => simp [State.loadRegs, ih]
@[simp] theorem State.loadRegs_st (n : Nat) (bs : List Byte) (s : State) : (s.loadRegs n bs).st = s.st := by
  induction bs generalizing n s with
  | nil => rfl
  | cons b bs ih => simp [State.loadRegs, ih]
@[simp] theorem State.loadRegs_fb (n : Nat) (bs : List Byte) (s : State) : (s.loadRegs n bs).fb = s.fb := by
  induction bs generalizing n s with
  | nil => rfl
  | cons b bs ih => simp [State.loadRegs, ih]
@[simp] theorem State.loadRegs_k (n : Nat) (bs : List Byte) (s : State) : (s.loadRegs n bs).k = s.k := by
  induction bs generalizing n s with
  | nil => rfl
  | cons b bs ih => simp [State.loadRegs, ih]
@[simp] theorem State.loadRegs_mode (n : Nat) (bs : List Byte) (s : State) : (s.loadRegs n bs).mode = s.mode := by
  induction bs generalizing n s with
  | nil => rfl
  | cons b bs ih => simp [State.loadRegs, ih]
@[simp] theorem State.loadRegs_diag (n : Nat) (bs : List Byte) (s : State) : (s.loadRegs n bs).diag = s.diag := by
  induction bs generalizing n s with
  | nil => rfl
  | cons b bs ih => simp [State.loadRegs, ih]
@[simp] theorem State.loadRegs_inputs (n : Nat) (bs : List Byte) (s : State) : (s.loadRegs n bs).inputs = s.inputs := by
  induction bs generalizing n s with
  | nil => rfl
  | cons b bs ih => simp [State.loadRegs, ih]
@[simp] theorem State.loadRegs_cycle (n : Nat) (bs : List Byte) (s : State) : (s.loadRegs n bs).cycle = s.cycle := by
  induction bs generalizing n s with
  | nil => rfl
  | cons b bs ih => simp [State.loadRegs, ih]

/-! ## `draw` -/

@[simp] theorem State.draw_mem (p : Config.DrawEdgePolicy) (x y : Nibble) (rows : List Byte) (s : State) :
    (s.draw p x y rows).mem = s.mem := rfl
@[simp] theorem State.draw_i (p : Config.DrawEdgePolicy) (x y : Nibble) (rows : List Byte) (s : State) :
    (s.draw p x y rows).i = s.i := rfl
@[simp] theorem State.draw_pc (p : Config.DrawEdgePolicy) (x y : Nibble) (rows : List Byte) (s : State) :
    (s.draw p x y rows).pc = s.pc := rfl
@[simp] theorem State.draw_stack (p : Config.DrawEdgePolicy) (x y : Nibble) (rows : List Byte) (s : State) :
    (s.draw p x y rows).stack = s.stack := rfl
@[simp] theorem State.draw_dt (p : Config.DrawEdgePolicy) (x y : Nibble) (rows : List Byte) (s : State) :
    (s.draw p x y rows).dt = s.dt := rfl
@[simp] theorem State.draw_st (p : Config.DrawEdgePolicy) (x y : Nibble) (rows : List Byte) (s : State) :
    (s.draw p x y rows).st = s.st := rfl
@[simp] theorem State.draw_k (p : Config.DrawEdgePolicy) (x y : Nibble) (rows : List Byte) (s : State) :
    (s.draw p x y rows).k = s.k := rfl
@[simp] theorem State.draw_mode (p : Config.DrawEdgePolicy) (x y : Nibble) (rows : List Byte) (s : State) :
    (s.draw p x y rows).mode = s.mode := rfl
@[simp] theorem State.draw_diag (p : Config.DrawEdgePolicy) (x y : Nibble) (rows : List Byte) (s : State) :
    (s.draw p x y rows).diag = s.diag := rfl
@[simp] theorem State.draw_inputs (p : Config.DrawEdgePolicy) (x y : Nibble) (rows : List Byte) (s : State) :
    (s.draw p x y rows).inputs = s.inputs := rfl
@[simp] theorem State.draw_cycle (p : Config.DrawEdgePolicy) (x y : Nibble) (rows : List Byte) (s : State) :
    (s.draw p x y rows).cycle = s.cycle := rfl

/-! ## Registers and latches through their accessors -/

/-- What a register write does to every register (R30). -/
theorem State.reg_setReg (s : State) (x j : Nibble) (b : Byte) : (s.setReg x b).reg j = if j = x then b else s.reg j := by
  unfold State.reg State.setReg
  by_cases h : j = x
  · subst h; simp
  · have : x.toNat ≠ j.toNat := fun e => h (BitVec.eq_of_toNat_eq e.symm)
    simp [h, this]

@[simp] theorem State.reg_setReg_self (s : State) (x : Nibble) (b : Byte) : (s.setReg x b).reg x = b := by
  simp [State.reg_setReg]

theorem State.reg_setReg_ne (s : State) (x j : Nibble) (b : Byte) (h : j ≠ x) : (s.setReg x b).reg j = s.reg j := by
  simp [State.reg_setReg, h]

/-- What a latch write does to every latch (R43). -/
theorem State.key_setKey (s : State) (x j : Nibble) (b : Bool) : (s.setKey x b).key j = if j = x then b else s.key j := by
  unfold State.key State.setKey
  by_cases h : j = x
  · subst h; simp
  · have : x.toNat ≠ j.toNat := fun e => h (BitVec.eq_of_toNat_eq e.symm)
    simp [h, this]

/-- Two states with the same register file have the same registers. -/
theorem State.reg_congr {s t : State} (h : t.v = s.v) (j : Nibble) : t.reg j = s.reg j := by simp [State.reg, h]

/-- Two states with the same latches have the same keys. -/
theorem State.key_congr {s t : State} (h : t.k = s.k) (j : Nibble) : t.key j = s.key j := by simp [State.key, h]

/-- Two states with the same memory give the same byte. -/
theorem State.memRead_congr {s t : State} (h : t.mem = s.mem) (a : Nat) : t.memRead a = s.memRead a := by
  simp [State.memRead, h]

/-- The result and the flag of a flag-writing instruction, flag last (R33). -/
theorem reg_writeResultFlag (x j : Nibble) (r : Byte) (g : Bool) (s : State) :
    (writeResultFlag .flagLast x r g s).reg j = if j = vf then flagByte g else if j = x then r else s.reg j := by
  simp [writeResultFlag, State.reg_setReg]

@[simp] theorem State.reg_advance (s : State) (j : Nibble) : s.advance.reg j = s.reg j := rfl
@[simp] theorem State.reg_setPc (s : State) (a : Word) (j : Nibble) : (s.setPc a).reg j = s.reg j := rfl
@[simp] theorem State.reg_setI (s : State) (a : Word) (j : Nibble) : (s.setI a).reg j = s.reg j := rfl
@[simp] theorem State.reg_setDt (s : State) (b : Byte) (j : Nibble) : (s.setDt b).reg j = s.reg j := rfl
@[simp] theorem State.reg_setSt (s : State) (b : Byte) (j : Nibble) : (s.setSt b).reg j = s.reg j := rfl
@[simp] theorem State.reg_setMode (s : State) (m : Mode) (j : Nibble) : (s.setMode m).reg j = s.reg j := rfl
@[simp] theorem State.reg_setFb (s : State) (f : FrameBuffer) (j : Nibble) : (s.setFb f).reg j = s.reg j := rfl
@[simp] theorem State.reg_setKey (s : State) (x : Nibble) (c : Bool) (j : Nibble) : (s.setKey x c).reg j = s.reg j := rfl
@[simp] theorem State.reg_raiseFault (s : State) (g : Fault) (j : Nibble) : (s.raiseFault g).reg j = s.reg j := rfl
@[simp] theorem State.reg_report (s : State) (kd : DiagKind) (w a : Word) (j : Nibble) : (s.report kd w a).reg j = s.reg j := rfl
@[simp] theorem State.reg_endCycle (s : State) (j : Nibble) : s.endCycle.reg j = s.reg j := rfl
@[simp] theorem State.reg_skipIf (s : State) (c : Bool) (j : Nibble) : (s.skipIf c).reg j = s.reg j := by cases c <;> rfl

end Sys2Proof.Machine
end

