-- ==== Sys2Proof/Laws/Display.lean ====
section
/-! SUPPORT. The framebuffer and the blit engine (43_display.md R200 to R205): a blit flips a list of distinct cells, one per
placed 1 bit of the sprite. -/

namespace Sys2Proof.Machine

abbrev Pixel := Fin Config.displayW × Fin Config.displayH

@[simp] theorem FrameBuffer.pixel_clear (c : Fin Config.displayW) (r : Fin Config.displayH) :
    FrameBuffer.clear.pixel c r = false := by
  simp [FrameBuffer.clear, FrameBuffer.pixel]

/-- What flipping one pixel does to every pixel. -/
theorem FrameBuffer.pixel_flip (fb : FrameBuffer) (c c' : Fin Config.displayW) (r r' : Fin Config.displayH) :
    (fb.flip c r).pixel c' r' = (fb.pixel c' r' ^^ decide ((c', r') = (c, r))) := by
  unfold FrameBuffer.flip FrameBuffer.pixel
  by_cases hc : c' = c
  · subst hc
    by_cases hr : r' = r
    · subst hr; simp
    · have : r.val ≠ r'.val := fun e => hr (Fin.ext e.symm)
      simp [hr, this]
  · have : c.val ≠ c'.val := fun e => hc (Fin.ext e.symm)
    simp [hc, this]

/-- Two framebuffers with the same pixels are equal. -/
theorem FrameBuffer.ext_pixel {f g : FrameBuffer} (h : ∀ c r, f.pixel c r = g.pixel c r) : f = g := by
  apply Vector.ext
  intro c hc
  apply Vector.ext
  intro r hr
  exact h ⟨c, hc⟩ ⟨r, hr⟩

/-! ## A blit as a list of cells -/

/-- One flip with its collision (R204). -/
def toggle (a : FrameBuffer × Bool) (q : Pixel) : FrameBuffer × Bool := (a.1.flip q.1 q.2, a.2 || a.1.pixel q.1 q.2)

/-- The cells of one sprite row. -/
def rowCells (p : Config.DrawEdgePolicy) (x0 cy : Nat) (row : Byte) : List Pixel :=
  (List.range 8).filterMap fun c => if spriteBit row c then place p (x0 + c) cy else none

/-- The cells of a sprite. -/
def spriteCells (p : Config.DrawEdgePolicy) (x0 cy : Nat) : List Byte → List Pixel
  | [] => []
  | row :: rows => rowCells p x0 cy row ++ spriteCells p x0 (cy + 1) rows

theorem blitRow_eq (p : Config.DrawEdgePolicy) (x0 cy : Nat) (row : Byte) (a : FrameBuffer × Bool) :
    blitRow p x0 cy row a = (rowCells p x0 cy row).foldl toggle a := by
  unfold blitRow rowCells
  rw [List.foldl_filterMap]
  congr 1
  funext a c
  split
  · unfold blitPixel
    split <;> rename_i h <;> simp [h, toggle]
  · rfl

/-- A blit flips the cells of its sprite, in order. -/
theorem blit_eq (p : Config.DrawEdgePolicy) (x0 cy : Nat) (rows : List Byte) (a : FrameBuffer × Bool) :
    blit p x0 cy rows a = (spriteCells p x0 cy rows).foldl toggle a := by
  induction rows generalizing cy a with
  | nil => rfl
  | cons row rows ih => rw [blit, spriteCells, List.foldl_append, ih, blitRow_eq]

/-- Flipping distinct cells: each listed pixel is inverted, every other is unchanged, and a collision is noted when a
listed pixel was set. -/
theorem foldl_toggle (qs : List Pixel) (a : FrameBuffer × Bool) (h : qs.Nodup) :
    (∀ c r, (qs.foldl toggle a).1.pixel c r = (a.1.pixel c r ^^ decide ((c, r) ∈ qs))) ∧
      (qs.foldl toggle a).2 = (a.2 || qs.any fun q => a.1.pixel q.1 q.2) := by
  induction qs generalizing a with
  | nil => simp
  | cons q qs ih =>
    obtain ⟨hq, hqs⟩ := List.nodup_cons.mp h
    obtain ⟨h1, h2⟩ := ih (toggle a q) hqs
    refine ⟨fun c r => ?_, ?_⟩
    · rw [List.foldl_cons, h1, toggle, FrameBuffer.pixel_flip]
      by_cases e : (c, r) = q
      · subst e; simp [hq]
      · simp [e]
    · rw [List.foldl_cons, h2, toggle, List.any_cons, Bool.or_assoc]
      congr 2
      rw [Bool.eq_iff_iff, List.any_eq_true, List.any_eq_true]
      refine exists_congr fun q' => and_congr_right fun hm => ?_
      have hne : ¬ q' = q := fun e => hq (e ▸ hm)
      rw [FrameBuffer.pixel_flip]
      simp [hne]

/-! ## Under either policy the cells are distinct (R205) -/

/-- A placed cell lies at the coordinates modulo the grid, under either policy (R203). -/
theorem place_eq_some {p : Config.DrawEdgePolicy} {cx cy : Nat} {q : Pixel} (h : place p cx cy = some q) :
    q.1.val = cx % 64 ∧ q.2.val = cy % 32 := by
  cases p with
  | wrap => cases h; exact ⟨rfl, rfl⟩
  | clip =>
    simp only [place] at h
    split at h
    · cases h; exact ⟨rfl, rfl⟩
    · cases h

theorem mem_rowCells {p : Config.DrawEdgePolicy} {x0 cy : Nat} {row : Byte} {q : Pixel} :
    q ∈ rowCells p x0 cy row ↔ ∃ c, c < 8 ∧ spriteBit row c = true ∧ place p (x0 + c) cy = some q := by
  simp only [rowCells, List.mem_filterMap, List.mem_range]
  constructor
  · rintro ⟨c, hc, h⟩
    split at h
    · rename_i hb; exact ⟨c, hc, hb, h⟩
    · cases h
  · rintro ⟨c, hc, hb, h⟩
    exact ⟨c, hc, by simp [hb, h]⟩

theorem mem_spriteCells {p : Config.DrawEdgePolicy} {x0 cy : Nat} {rows : List Byte} {q : Pixel} :
    q ∈ spriteCells p x0 cy rows ↔
      ∃ n row, rows[n]? = some row ∧ ∃ c, c < 8 ∧ spriteBit row c = true ∧ place p (x0 + c) (cy + n) = some q := by
  induction rows generalizing cy with
  | nil => simp [spriteCells]
  | cons row rows ih =>
    rw [spriteCells, List.mem_append, mem_rowCells, ih]
    constructor
    · rintro (h | ⟨n, row', hn, h⟩)
      · exact ⟨0, row, rfl, h⟩
      · exact ⟨n + 1, row', by simpa using hn, by simpa [Nat.add_assoc, Nat.add_comm 1] using h⟩
    · rintro ⟨n, row', hn, h⟩
      cases n with
      | zero => left; simp at hn; subst hn; exact h
      | succ n => right; exact ⟨n, row', by simpa using hn, by simpa [Nat.add_assoc, Nat.add_comm 1] using h⟩

theorem nodup_rowCells (p : Config.DrawEdgePolicy) (x0 cy : Nat) (row : Byte) : (rowCells p x0 cy row).Nodup := by
  unfold rowCells
  rw [List.nodup_iff_pairwise_ne, List.pairwise_filterMap]
  refine List.Pairwise.imp_of_mem ?_ (List.nodup_iff_pairwise_ne.mp List.nodup_range)
  intro c d hc hd hne q hq q' hq' e
  subst e
  rw [List.mem_range] at hc hd
  split at hq
  · split at hq'
    · have h1 := (place_eq_some hq).1
      have h2 := (place_eq_some hq').1
      omega
    · cases hq'
  · cases hq

theorem nodup_spriteCells (p : Config.DrawEdgePolicy) (x0 cy : Nat) (rows : List Byte) (h : rows.length ≤ 32) :
    (spriteCells p x0 cy rows).Nodup := by
  induction rows generalizing cy with
  | nil => exact List.nodup_nil
  | cons row rows ih =>
    simp only [List.length_cons] at h
    rw [spriteCells, List.nodup_append]
    refine ⟨nodup_rowCells p x0 cy row, ih (cy + 1) (by omega), ?_⟩
    intro q hq q' hq' e
    subst e
    obtain ⟨c, -, -, h1⟩ := mem_rowCells.mp hq
    obtain ⟨n, row', hn, d, -, -, h2⟩ := mem_spriteCells.mp hq'
    have := (List.getElem?_eq_some_iff.mp hn).1
    have h1 := (place_eq_some h1).2
    have h2 := (place_eq_some h2).2
    omega

/-- Everything a blit does, under either policy: the placed 1 bits invert their pixels, every other pixel is unchanged,
and the collision is noted exactly when a placed 1 bit meets a set pixel. -/
theorem blit_spec (p : Config.DrawEdgePolicy) (x0 y0 : Nat) (rows : List Byte) (fb : FrameBuffer) (h : rows.length ≤ 32) :
    (∀ c r, (blit p x0 y0 rows (fb, false)).1.pixel c r =
      (fb.pixel c r ^^ decide ((c, r) ∈ spriteCells p x0 y0 rows))) ∧
      (blit p x0 y0 rows (fb, false)).2 = (spriteCells p x0 y0 rows).any fun q => fb.pixel q.1 q.2 := by
  rw [blit_eq]
  have := foldl_toggle (spriteCells p x0 y0 rows) (fb, false) (nodup_spriteCells p x0 y0 rows h)
  simpa using this

/-- Under `Wrap` the cells of a sprite are the pixels that `spriteAt` names. -/
theorem mem_spriteCells_wrap (x0 y0 : Nat) (rows : List Byte) (c : Fin Config.displayW) (r : Fin Config.displayH) :
    (c, r) ∈ spriteCells .wrap x0 y0 rows ↔ spriteAt rows x0 y0 c r := by
  rw [mem_spriteCells]
  constructor
  · rintro ⟨n, row, hn, d, hd, hb, hp⟩
    obtain ⟨h1, h2⟩ := place_eq_some hp
    exact ⟨d, n, hd, h1.symm, h2.symm, row, hn, hb⟩
  · rintro ⟨d, n, hd, h1, h2, row, hn, hb⟩
    refine ⟨n, row, hn, d, hd, hb, ?_⟩
    simp only [place, Option.some.injEq, Prod.mk.injEq]
    exact ⟨Fin.ext h1, Fin.ext h2⟩

end Sys2Proof.Machine
end

