-- ==== Sys2Proof/Laws/Memory.lean ====
section
/-! SUPPORT. Memory: a read after a write, the canonical form, and the accesses of a range (20_memory.md R73 to R80). -/

namespace Sys2Proof.Machine

/-! ## The bytes of a canonical memory -/

theorem Memory.read_cell_append_self (a : Nat) (v : Byte) (m : Memory) (h : m.read a = Memory.background a) :
    Memory.read (Memory.cell a v ++ m) a = v := by
  unfold Memory.cell
  split
  · simp_all
  · simp [Memory.read]

theorem Memory.read_cell_append_ne (a b : Nat) (v : Byte) (m : Memory) (h : b ≠ a) :
    Memory.read (Memory.cell a v ++ m) b = m.read b := by
  unfold Memory.cell
  split
  · rfl
  · simp [Memory.read, h]

/-- An address below every listed one reads as the background. -/
theorem Memory.read_of_lt (m : Memory) (a : Nat) (h : ∀ c ∈ m, a < c.1) : m.read a = Memory.background a := by
  induction m with
  | nil => rfl
  | cons c m ih =>
    have hc : a < c.1 := h c (by simp)
    simp only [Memory.read, if_neg (Nat.ne_of_lt hc)]
    exact ih fun d hd => h d (by simp [hd])

theorem Memory.wf_nil : Memory.wf [] := by simp [Memory.wf]

theorem Memory.wf_tail {c : Host.Cell} {m : Memory} (h : Memory.wf (c :: m)) : m.wf :=
  ⟨(List.pairwise_cons.mp h.1).2, fun d hd => h.2 d (by simp [hd])⟩

theorem Memory.wf_head {c : Host.Cell} {m : Memory} (h : Memory.wf (c :: m)) : ∀ d ∈ m, c.1 < d.1 :=
  (List.pairwise_cons.mp h.1).1

/-- A write leaves every other byte alone. -/
theorem Memory.read_write_ne (m : Memory) (a b : Nat) (v : Byte) (h : b ≠ a) : (m.write a v).read b = m.read b := by
  induction m with
  | nil =>
    have := Memory.read_cell_append_ne a b v [] h
    simpa [Memory.write] using this
  | cons c m ih =>
    obtain ⟨d, w⟩ := c
    simp only [Memory.write]
    split
    · exact Memory.read_cell_append_ne a b v _ h
    · split
      · rename_i h2
        rw [Memory.read_cell_append_ne a b v _ h]
        simp [Memory.read, ← h2, h]
      · simp only [Memory.read, ih]

/-- A read after a write to the same address gives the byte written. -/
theorem Memory.read_write_self (m : Memory) (a : Nat) (v : Byte) (h : m.wf) : (m.write a v).read a = v := by
  induction m with
  | nil =>
    have := Memory.read_cell_append_self a v [] rfl
    simpa [Memory.write] using this
  | cons c m ih =>
    obtain ⟨d, w⟩ := c
    have hd := Memory.wf_head h
    simp only [Memory.write]
    split
    · rename_i h1
      refine Memory.read_cell_append_self a v _ (Memory.read_of_lt _ _ ?_)
      intro e he
      rcases List.mem_cons.mp he with rfl | he
      · exact h1
      · exact Nat.lt_trans h1 (hd e he)
    · split
      · rename_i h2
        subst h2
        exact Memory.read_cell_append_self a v _ (Memory.read_of_lt _ _ hd)
      · rename_i h2
        simp only [Memory.read, if_neg h2]
        exact ih (Memory.wf_tail h)

/-- Everything a write does to every byte. -/
theorem Memory.read_write (m : Memory) (a b : Nat) (v : Byte) (h : m.wf) :
    (m.write a v).read b = if b = a then v else m.read b := by
  split
  · rename_i e; subst e; exact Memory.read_write_self m b v h
  · rename_i e; exact Memory.read_write_ne m a b v e

/-! ## The canonical form is kept -/

theorem Memory.mem_cell {a : Nat} {v : Byte} {c : Host.Cell} (h : c ∈ Memory.cell a v) :
    c = (a, v) ∧ v ≠ Memory.background a := by
  unfold Memory.cell at h
  split at h
  · simp at h
  · rename_i hv; exact ⟨by simpa using h, hv⟩

theorem Memory.mem_write {m : Memory} {a : Nat} {v : Byte} {c : Host.Cell} (h : c ∈ m.write a v) :
    (c = (a, v) ∧ v ≠ Memory.background a) ∨ c ∈ m := by
  induction m with
  | nil => exact .inl (Memory.mem_cell h)
  | cons d m ih =>
    obtain ⟨b, w⟩ := d
    simp only [Memory.write] at h
    split at h
    · rcases List.mem_append.mp h with h | h
      · exact .inl (Memory.mem_cell h)
      · exact .inr h
    · split at h
      · rcases List.mem_append.mp h with h | h
        · exact .inl (Memory.mem_cell h)
        · exact .inr (by simp [h])
      · rcases List.mem_cons.mp h with h | h
        · exact .inr (by simp [h])
        · rcases ih h with h | h
          · exact .inl h
          · exact .inr (by simp [h])

theorem Memory.wf_cell_append {a : Nat} {v : Byte} {m : Memory} (ha : a < Config.memSize) (h : m.wf)
    (hm : ∀ c ∈ m, a < c.1) : Memory.wf (Memory.cell a v ++ m) := by
  unfold Memory.cell
  split
  · simpa using h
  · rename_i hv
    refine ⟨by simpa using ⟨fun _ b hc => hm (_, b) hc, h.1⟩, ?_⟩
    intro c hc
    rcases List.mem_append.mp hc with hc | hc
    · simp at hc; subst hc; exact ⟨ha, hv⟩
    · exact h.2 c hc

/-- A write inside the address space keeps the canonical form. -/
theorem Memory.wf_write {m : Memory} {a : Nat} {v : Byte} (ha : a < Config.memSize) (h : m.wf) : (m.write a v).wf := by
  induction m with
  | nil =>
    have := Memory.wf_cell_append (v := v) ha h (by simp)
    simpa [Memory.write] using this
  | cons d m ih =>
    obtain ⟨b, w⟩ := d
    have hd := Memory.wf_head h
    have ht := Memory.wf_tail h
    simp only [Memory.write]
    split
    · rename_i h1
      refine Memory.wf_cell_append ha h ?_
      intro e he
      rcases List.mem_cons.mp he with rfl | he
      · exact h1
      · exact Nat.lt_trans h1 (hd e he)
    · rename_i h1
      split
      · rename_i h2; subst h2; exact Memory.wf_cell_append ha ht hd
      · rename_i h2
        have hw := ih ht
        refine ⟨List.pairwise_cons.mpr ⟨?_, hw.1⟩, ?_⟩
        · intro c hc
          rcases Memory.mem_write hc with ⟨rfl, -⟩ | hc
          · show b < a; omega
          · exact hd c hc
        · intro c hc
          rcases List.mem_cons.mp hc with rfl | hc
          · exact h.2 _ (by simp)
          · exact hw.2 c hc

/-- Stores of a range inside the address space keep the canonical form. -/
theorem Memory.wf_writeBytes {bs : List Byte} {m : Memory} {base : Nat} (hb : base + bs.length ≤ Config.memSize)
    (h : m.wf) : (m.writeBytes base bs).wf := by
  induction bs generalizing m base with
  | nil => exact h
  | cons b bs ih =>
    simp only [List.length_cons] at hb
    exact ih (by omega) (Memory.wf_write (by omega) h)

/-- Stores of a range leave every byte outside it alone. -/
theorem Memory.read_writeBytes_outside (m : Memory) (base : Nat) (bs : List Byte) (a : Nat)
    (h : ¬ (base ≤ a ∧ a < base + bs.length)) : (m.writeBytes base bs).read a = m.read a := by
  induction bs generalizing m base with
  | nil => rfl
  | cons b bs ih =>
    simp only [List.length_cons] at h
    rw [Memory.writeBytes, ih _ _ (by omega), Memory.read_write_ne _ _ _ _ (by omega)]

/-- Byte `n` of a stored range is the `n`-th byte stored. -/
theorem Memory.read_writeBytes_inside (m : Memory) (base : Nat) (bs : List Byte) (n : Nat) (hn : n < bs.length)
    (hb : base + bs.length ≤ Config.memSize) (h : m.wf) : (m.writeBytes base bs).read (base + n) = bs[n] := by
  induction bs generalizing m base n with
  | nil => simp at hn
  | cons b bs ih =>
    simp only [List.length_cons] at hb hn
    rw [Memory.writeBytes]
    cases n with
    | zero =>
      rw [Memory.read_writeBytes_outside _ _ _ _ (by omega)]
      exact Memory.read_write_self m base b h
    | succ n =>
      rw [show base + (n + 1) = base + 1 + n by omega, ih _ _ _ (by omega) (by omega) (Memory.wf_write (by omega) h)]
      rfl

/-! ## The CORE's accesses -/

/-- Inside the address space a byte can be read (R73). -/
theorem State.memRead_of_lt (s : State) {a : Nat} (h : a < Config.memSize) : s.memRead a = some (s.mem.read a) := by
  simp only [State.memRead, if_pos h]

/-- Outside the address space no byte can be read (R73). -/
theorem State.memRead_of_ge (s : State) {a : Nat} (h : Config.memSize ≤ a) : s.memRead a = none := by
  simp only [State.memRead, if_neg (Nat.not_lt.mpr h)]

theorem State.memReads_eq (s : State) (n base : Nat) (h : base + n ≤ Config.memSize) :
    s.memReads base n = some ((List.range n).map fun k => s.mem.read (base + k)) := by
  induction n generalizing base with
  | zero => rfl
  | succ n ih =>
    rw [State.memReads, State.memRead_of_lt s (by omega), ih (base + 1) (by omega), List.range_succ_eq_map]
    simp [Function.comp_def, Nat.add_assoc, Nat.add_comm 1]

theorem State.memWrites_eq (bs : List Byte) (s : State) (base : Nat) (h : base + bs.length ≤ Config.memSize) :
    s.memWrites base bs = some { s with mem := s.mem.writeBytes base bs } := by
  induction bs generalizing s base with
  | nil => rfl
  | cons b bs ih =>
    simp only [List.length_cons] at h
    simp only [State.memWrites, State.memWrite, if_pos (show base < Config.memSize by omega), Option.bind_some]
    rw [ih _ _ (by omega)]
    rfl

/-- Everything a read through `I` can give: the bytes of the range, or none when the range leaves the address space. -/
theorem State.loadRange_eq (s : State) (n : Nat) :
    s.loadRange n = if s.iBase + n ≤ Config.memSize then
      some ((List.range n).map fun k => s.mem.read (s.iBase + k)) else none := by
  by_cases h : s.iBase + n ≤ Config.memSize
  · simp [State.loadRange, inRange, h, State.memReads_eq]
  · simp [State.loadRange, inRange, h]

/-- Everything a store through `I` can do: the bytes stored, or none when the range leaves the address space. -/
theorem State.storeRange_eq (s : State) (bs : List Byte) :
    s.storeRange bs = if s.iBase + bs.length ≤ Config.memSize then
      some { s with mem := s.mem.writeBytes s.iBase bs } else none := by
  by_cases h : s.iBase + bs.length ≤ Config.memSize
  · simp [State.storeRange, inRange, h, State.memWrites_eq]
  · simp [State.storeRange, inRange, h]

/-- A one-byte write of the CORE keeps the canonical form (R74). -/
theorem State.wf_memWrite {s t : State} {a : Nat} {b : Byte} (h : s.mem.wf) (ht : s.memWrite a b = some t) : t.mem.wf := by
  unfold State.memWrite at ht
  split at ht
  · rename_i ha; cases ht; exact Memory.wf_write ha h
  · cases ht

/-- Writes of a range keep the canonical form (R75). -/
theorem State.wf_memWrites {bs : List Byte} {s t : State} {a : Nat} (h : s.mem.wf) (ht : s.memWrites a bs = some t) :
    t.mem.wf := by
  induction bs generalizing s a with
  | nil => cases ht; exact h
  | cons b bs ih =>
    rw [State.memWrites, Option.bind_eq_some_iff] at ht
    obtain ⟨u, hu, ht⟩ := ht
    exact ih (State.wf_memWrite h hu) ht

/-- A store through `I` keeps the canonical form (R76). -/
theorem State.wf_storeRange {s t : State} {bs : List Byte} (h : s.mem.wf) (ht : s.storeRange bs = some t) : t.mem.wf := by
  unfold State.storeRange at ht
  split at ht
  · exact State.wf_memWrites h ht
  · cases ht

theorem State.iBase_lt (s : State) : s.iBase < Config.memSize := Nat.mod_lt _ (by decide)

end Sys2Proof.Machine
end

