-- ==== Sys2Proof/Laws/Ops.lean ====
section
/-! SUPPORT. One lemma per shared operation that says everything it can do: the stack, the outcome of a checked instruction,
register blocks, flags, immediates and key codes. -/

namespace Sys2Proof.Machine

/-! ## The call stack (R39) -/

/-- Everything `Pop` can do. -/
theorem State.pop_cases (s : State) :
    (s.stack = [] ∧ s.pop = none) ∨ ∃ v rest, s.stack = v :: rest ∧ s.pop = some (v, { s with stack := rest }) := by
  cases h : s.stack with
  | nil => exact .inl ⟨rfl, by simp [State.pop, h]⟩
  | cons v rest => exact .inr ⟨v, rest, rfl, by simp [State.pop, h]⟩

/-- Everything `Push` can do. -/
theorem State.push_eq (depth : Nat) (s : State) (v : Word) :
    s.push depth v = if s.sp < depth then some { s with stack := v :: s.stack } else none := rfl

/-- The entry just pushed is `S[SP]` of before, and the entries below it are unchanged (R39). -/
theorem State.entry_push (s t : State) (v : Word) (h : t.stack = v :: s.stack) (n : Nat) :
    t.entry n = if n = s.sp then some v else s.entry n := by
  by_cases e : n = s.sp
  · rw [if_pos e, e, State.entry, h, State.sp]; simp
  · rw [if_neg e, State.entry, State.entry, h, List.reverse_cons]
    by_cases hl : n < s.stack.length
    · rw [List.getElem?_append_left (by simpa using hl)]
    · have : n ≠ s.stack.length := e
      rw [List.getElem?_eq_none (by simp; omega), List.getElem?_eq_none (by simp; omega)]

/-- After a pop the entries below the new `SP` are unchanged (R39). -/
theorem State.entry_pop (s t : State) (v : Word) (h : s.stack = v :: t.stack) (n : Nat) (hn : n < t.sp) :
    t.entry n = s.entry n := by
  rw [State.entry_push t s v h, if_neg (Nat.ne_of_lt hn)]

/-! ## A checked instruction (R252) -/

@[simp] theorem orFault_some (f : Fault) (s t : State) : orFault f s (some t) = .next t := rfl
@[simp] theorem orFault_none (f : Fault) (s : State) : orFault f s none = .next (s.raiseFault f) := rfl

/-- Everything a checked instruction can end in: its effect, or the fatal fault. -/
theorem orFault_cases (f : Fault) (s : State) (r : Option State) :
    (∃ t, r = some t ∧ orFault f s r = .next t) ∨ (r = none ∧ orFault f s r = .next (s.raiseFault f)) := by
  cases r with
  | none => exact .inr ⟨rfl, rfl⟩
  | some t => exact .inl ⟨t, rfl, rfl⟩

/-- An unimplemented word under the decided policy (R240). -/
@[simp] theorem unimplementedWord_reportContinue (w : Word) (s : State) :
    unimplementedWord .reportContinue w s = .next (s.advance.report .unimplemented w s.pc) := rfl

/-! ## Register blocks (R185, R186) -/

@[simp] theorem State.length_regsTo (s : State) (x : Nibble) : (s.regsTo x).length = x.toNat + 1 := by
  have := x.isLt
  simp [State.regsTo]; omega

/-- Entry `j` of a register block is `V[j]`. -/
theorem State.getElem_regsTo (s : State) (x j : Nibble) (h : j.toNat < (s.regsTo x).length) :
    (s.regsTo x)[j.toNat] = s.reg j := by
  simp [State.regsTo, State.reg]

/-- Everything a register block load does to every register: `V[n]` and up receive the bytes. -/
theorem State.reg_loadRegs (bs : List Byte) (n : Nat) (s : State) (j : Nibble) (h : n + bs.length ≤ 16) :
    (s.loadRegs n bs).reg j =
      if hj : n ≤ j.toNat ∧ j.toNat < n + bs.length then bs[j.toNat - n]'(by omega) else s.reg j := by
  induction bs generalizing n s with
  | nil =>
    rw [dif_neg (by simp)]
    rfl
  | cons b bs ih =>
    simp only [List.length_cons] at h ⊢
    rw [State.loadRegs, ih _ _ (by omega)]
    have hj16 := j.isLt
    by_cases h1 : n + 1 ≤ j.toNat ∧ j.toNat < n + 1 + bs.length
    · rw [dif_pos h1, dif_pos (by omega)]
      simp [show j.toNat - n = (j.toNat - (n + 1)) + 1 by omega]
    · rw [dif_neg h1, State.reg_setReg]
      by_cases h2 : j = BitVec.ofNat 4 n
      · have h3 : j.toNat = n := by rw [h2, BitVec.toNat_ofNat]; exact Nat.mod_eq_of_lt (by omega)
        rw [if_pos h2, dif_pos (by omega)]
        simp [h3]
      · have h3 : j.toNat ≠ n := by
          rintro rfl
          exact h2 (by simp)
        rw [if_neg h2, dif_neg (by omega)]

/-! ## Immediates and key codes (R105, R220) -/

@[simp] theorem toNat_zextAddr (nnn : Addr12) : (zextAddr nnn).toNat = nnn.toNat := by
  have := nnn.isLt
  simp only [zextAddr, BitVec.toNat_setWidth]; omega

@[simp] theorem toNat_zextByte (b : Byte) : (zextByte b).toNat = b.toNat := by
  have := b.isLt
  simp only [zextByte, BitVec.toNat_setWidth]; omega

/-- Everything `keyCode` can give: the key with the register's value, or none above 0xF. -/
theorem keyCode_cases (b : Byte) :
    (b.toNat < 16 ∧ ∃ k : Nibble, keyCode b = some k ∧ k.toNat = b.toNat) ∨ (16 ≤ b.toNat ∧ keyCode b = none) := by
  by_cases h : b.toNat < 16
  · refine .inl ⟨h, b.setWidth 4, by simp [keyCode, h], ?_⟩
    simp only [BitVec.toNat_setWidth]; omega
  · exact .inr ⟨by omega, by simp [keyCode, h]⟩

/-- A key code has the value of the register it was read from. -/
theorem keyCode_eq_some {b : Byte} {k : Nibble} (h : keyCode b = some k) : k.toNat = b.toNat := by
  rcases keyCode_cases b with ⟨-, k', hk, e⟩ | ⟨-, hn⟩
  · rw [h] at hk; cases hk; exact e
  · rw [h] at hn; cases hn

/-! ## Flags (R33, R161) -/

@[simp] theorem flagByte_true : flagByte true = 1 := rfl
@[simp] theorem flagByte_false : flagByte false = 0 := rfl

/-! ## Decimal digits (R183) -/

@[simp] theorem length_bcdDigits (b : Byte) : (bcdDigits b).length = 3 := rfl

/-! ## The blit engine's registers (R201) -/

/-- What a draw does to every register: VF receives the collision, the others are unchanged. -/
theorem State.reg_draw (p : Config.DrawEdgePolicy) (x y j : Nibble) (rows : List Byte) (s : State) :
    (s.draw p x y rows).reg j =
      if j = vf then flagByte (blit p (s.reg x).toNat (s.reg y).toNat rows (s.fb, false)).2 else s.reg j := by
  simp [State.draw, State.reg_setReg]

end Sys2Proof.Machine
end

