-- ==== Sys2Proof/Laws/Scheduler.lean ====
section
/-! SUPPORT. What the phases of a cycle can do (60_exceptions.md R257, R258, R270 to R274), the fetch (30_encoding.md R100)
and the ROM load (70_reset_and_hazards.md R293). -/

namespace Sys2Proof.Machine

/-! ## The host's input -/

@[simp] theorem State.currentInput_cons (s : State) (c : CycleInput) (cs : List CycleInput) (h : s.inputs = c :: cs) :
    s.currentInput = c := by simp [State.currentInput, h]

@[simp] theorem State.currentInput_nil (s : State) (h : s.inputs = []) :
    s.currentInput = ⟨[], false, Config.freeRnd s.cycle⟩ := by simp [State.currentInput, h]

/-! ## Input phase -/

@[simp] theorem State.applyEvents_nil (s : State) : s.applyEvents [] = s := rfl
@[simp] theorem State.applyEvents_press (s : State) (k : Nibble) (es : List Event) :
    s.applyEvents (.press k :: es) = (s.press k).applyEvents es := rfl
@[simp] theorem State.applyEvents_release (s : State) (k : Nibble) (es : List Event) :
    s.applyEvents (.release k :: es) = (s.release k).applyEvents es := rfl
@[simp] theorem State.applyEvents_quit (s : State) (es : List Event) :
    s.applyEvents (.quit :: es) = s.setMode (.halted .quit) := rfl

/-- Everything a press can do: set a latch only, or resume a wait. -/
theorem State.press_cases (s : State) (k : Nibble) :
    ((∀ x, s.mode ≠ .awaitingKey x) ∧ s.press k = s.setKey k true) ∨
    (∃ x, s.mode = .awaitingKey x ∧ s.key k = true ∧ s.press k = s.setKey k true) ∨
    (∃ x, s.mode = .awaitingKey x ∧ s.key k = false ∧
      s.press k = ((s.setReg x (k.setWidth 8)).setMode .running).setKey k true) := by
  cases h : s.mode with
  | running => exact .inl ⟨by simp, by simp [State.press, h]⟩
  | halted r => exact .inl ⟨by simp, by simp [State.press, h]⟩
  | awaitingKey x =>
    cases hk : s.key k with
    | true => exact .inr (.inl ⟨x, rfl, rfl, by simp [State.press, h, hk]⟩)
    | false => exact .inr (.inr ⟨x, rfl, rfl, by simp [State.press, h, hk]⟩)

/-- What the input phase leaves alone: everything but registers, latches and the mode (R271). -/
theorem State.applyEvents_keeps (es : List Event) (s : State) :
    (s.applyEvents es).mem = s.mem ∧ (s.applyEvents es).i = s.i ∧ (s.applyEvents es).pc = s.pc ∧
    (s.applyEvents es).stack = s.stack ∧ (s.applyEvents es).dt = s.dt ∧ (s.applyEvents es).st = s.st ∧
    (s.applyEvents es).fb = s.fb ∧ (s.applyEvents es).diag = s.diag ∧ (s.applyEvents es).inputs = s.inputs ∧
    (s.applyEvents es).cycle = s.cycle := by
  induction es generalizing s with
  | nil => simp
  | cons e es ih =>
    cases e with
    | press k =>
      rw [State.applyEvents_press]
      rcases State.press_cases s k with ⟨-, h⟩ | ⟨x, -, -, h⟩ | ⟨x, -, -, h⟩ <;> rw [h] <;> exact ih _
    | release k => exact ih (s.release k)
    | quit => simp

/-! ## Fetch -/

/-- Everything a fetch can give: the word at `PC`, high byte first, or none above 0xFFE (R72, R100). -/
theorem State.fetch_eq (s : State) :
    s.fetch = if s.pc.toNat ≤ 0xFFE then
      some (wordOfBytes (s.mem.read s.pc.toNat) (s.mem.read (s.pc.toNat + 1))) else none := by
  by_cases h : s.pc.toNat ≤ 0xFFE
  · rw [if_pos h, State.fetch, if_pos h, State.memRead_of_lt s (by simp only [Config.memSize]; omega),
      State.memRead_of_lt s (by simp only [Config.memSize]; omega)]
    rfl
  · rw [if_neg h, State.fetch, if_neg h]

/-! ## Execute phase -/

/-- Everything the execute phase can be (R100, R252, R270). -/
theorem executePhase_cases (s : State) :
    (s.mode = .running ∧ s.pc.toNat ≤ 0xFFE ∧ executePhase s =
        exec (decodeWord (wordOfBytes (s.mem.read s.pc.toNat) (s.mem.read (s.pc.toNat + 1)))) s) ∨
    (s.mode = .running ∧ 0xFFE < s.pc.toNat ∧ executePhase s = .next (s.raiseFault (.fetchOutOfBounds s.pc))) ∨
    (s.mode ≠ .running ∧ executePhase s = .next s) := by
  cases h : s.mode with
  | running =>
    by_cases hp : s.pc.toNat ≤ 0xFFE
    · exact .inl ⟨rfl, hp, by simp [executePhase, h, State.fetch_eq, hp]⟩
    · exact .inr (.inl ⟨rfl, by omega, by simp [executePhase, h, State.fetch_eq, hp]⟩)
  | awaitingKey x => exact .inr (.inr ⟨by simp, by simp [executePhase, h]⟩)
  | halted r => exact .inr (.inr ⟨by simp, by simp [executePhase, h]⟩)

/-! ## Timer phase -/

@[simp] theorem State.timerPhase_false (s : State) : s.timerPhase false = s := by
  cases h : s.mode <;> simp [State.timerPhase, h]

/-- Everything the timer phase can do (R257, R272). -/
theorem State.timerPhase_cases (due : Bool) (s : State) :
    (s.timerPhase due = s ∧ (due = false ∨ ∃ r, s.mode = .halted r)) ∨
    (s.timerPhase due = (s.setDt (tick s.dt)).setSt (tick s.st) ∧ due = true ∧ ∀ r, s.mode ≠ .halted r) := by
  cases due with
  | false => exact .inl ⟨by simp, .inl rfl⟩
  | true =>
    cases h : s.mode with
    | running => exact .inr ⟨by simp [State.timerPhase, h], rfl, by simp⟩
    | awaitingKey x => exact .inr ⟨by simp [State.timerPhase, h], rfl, by simp⟩
    | halted r => exact .inl ⟨by simp [State.timerPhase, h], .inr ⟨r, rfl⟩⟩

/-- One tick in numbers (R272). -/
theorem toNat_tick (b : Byte) : (tick b).toNat = b.toNat - 1 := by
  unfold tick
  split
  · rename_i h; subst h; rfl
  · rename_i h
    have : b.toNat ≠ 0 := fun e => h (BitVec.eq_of_toNat_eq e)
    have := b.isLt
    rw [BitVec.toNat_sub]
    simp; omega

/-! ## The cycle -/

/-- A halted CORE changes nothing (R258). -/
theorem step_halted {s : State} {r : HaltReason} (h : s.mode = .halted r) : step s = .next s := by
  simp [step, cycleOnce, h]

/-- A cycle of a CORE that is not halted: input, execute, timers (R270). -/
theorem step_eq {s : State} (h : ∀ r, s.mode ≠ .halted r) :
    step s = finishCycle s.currentInput.timerDue (executePhase (s.applyEvents s.currentInput.events)) := by
  cases hm : s.mode with
  | running => simp [step, cycleOnce, hm]
  | awaitingKey x => simp [step, cycleOnce, hm]
  | halted r => exact absurd hm (h r)

@[simp] theorem finishCycle_next (due : Bool) (t : State) : finishCycle due (.next t) = .next (t.timerPhase due).endCycle := rfl

/-! ## The ROM load -/

/-- Everything the ROM load can do (R293). -/
theorem loadRom_eq (rom : List Byte) (s : State) :
    loadRom rom s = if rom.length ≤ 3584 then .next { s with mem := s.mem.writeBytes 0x200 rom }
      else .refused (.romTooLong rom.length) := rfl

/-- The state after reset is the one initialised with the CORE's own table (R51). -/
theorem reset_withFont : State.reset.withFont Config.fontTable = State.reset := by decide

/-- A font table keeps the canonical form. -/
theorem wf_withFont {font : List Byte} {s : State} (hl : font.length ≤ Config.fontSize) (h : s.mem.wf) :
    (s.withFont font).mem.wf :=
  Memory.wf_writeBytes (by simp only [Config.memSize, Config.fontBase, Config.fontSize] at hl ⊢; omega) h

/-- The ROM load keeps the canonical form. -/
theorem wf_loadRom {rom : List Byte} {s t : State} (h : s.mem.wf) (ht : loadRom rom s = .next t) : t.mem.wf := by
  rw [loadRom_eq] at ht
  split at ht
  · rename_i hl
    cases ht
    exact Memory.wf_writeBytes (by simp only [Config.memSize]; omega) h
  · cases ht

/-- Placing a word keeps the canonical form. -/
theorem wf_placeWord {s : State} (w : Word) (h : s.mem.wf) : (s.placeWord w).mem.wf := by
  refine Memory.wf_writeBytes ?_ h
  simp only [State.fetchAddr, List.length_cons, List.length_nil]
  split
  · rename_i hp; simp only [Config.lastFetch, Config.memSize] at hp ⊢; omega
  · decide

end Sys2Proof.Machine
end

