-- ==== Sys2Proof/Laws/Events.lean ====
section
/-! SUPPORT. What a list of events does to the latches, and when it ends a wait (44_input_timers.md R223; 60_exceptions.md
R271, R274). The lists hold no `Quit`. -/

namespace Sys2Proof.Machine

/-! ## Latches -/

/-- The latch after two lists is the latch after the second, from the one after the first. -/
theorem latchAfter_append (k : Nibble) (b : Bool) (fs gs : List Event) (h : ∀ e ∈ fs, e ≠ .quit) :
    latchAfter k b (fs ++ gs) = latchAfter k (latchAfter k b fs) gs := by
  induction fs generalizing b with
  | nil => rfl
  | cons e fs ih =>
    have ht : ∀ e ∈ fs, e ≠ .quit := fun e he => h e (List.mem_cons_of_mem _ he)
    cases e with
    | press j => exact ih _ ht
    | release j => exact ih _ ht
    | quit => exact absurd rfl (h .quit List.mem_cons_self)

/-- A latch that no event names is kept. -/
theorem latchAfter_of_not_named (k : Nibble) (b : Bool) (es : List Event) (h : ∀ e ∈ es, e ≠ .press k ∧ e ≠ .release k) :
    latchAfter k b es = b := by
  induction es generalizing b with
  | nil => rfl
  | cons e es ih =>
    have ht : ∀ e ∈ es, e ≠ .press k ∧ e ≠ .release k := fun e he => h e (List.mem_cons_of_mem _ he)
    cases e with
    | press j =>
      have hj : (j == k) = false := beq_false_of_ne fun e => (h (.press j) List.mem_cons_self).1 (by rw [e])
      rw [latchAfter, hj, Bool.or_false, ih _ ht]
    | release j =>
      have hj : (j != k) = true := bne_iff_ne.2 fun e => (h (.release j) List.mem_cons_self).2 (by rw [e])
      rw [latchAfter, hj, Bool.and_true, ih _ ht]
    | quit => rfl

@[simp] theorem State.key_press (s : State) (k j : Nibble) : (s.press k).key j = (s.key j || k == j) := by
  have e : (s.press k).key j = if j = k then true else s.key j := by
    rcases State.press_cases s k with ⟨-, h⟩ | ⟨x, -, -, h⟩ | ⟨x, -, -, h⟩
    · rw [h, State.key_setKey]
    · rw [h, State.key_setKey]
    · rw [h, State.key_setKey]; rfl
  rw [e]
  by_cases h : j = k
  · simp [h]
  · simp [h, Ne.symm h]

@[simp] theorem State.key_release (s : State) (k j : Nibble) : (s.release k).key j = (s.key j && k != j) := by
  rw [State.release, State.key_setKey]
  by_cases h : j = k
  · simp [h]
  · simp [h, Ne.symm h]

/-- Every latch after the input phase. -/
theorem State.key_applyEvents (es : List Event) (s : State) (h : ∀ e ∈ es, e ≠ .quit) (k : Nibble) :
    (s.applyEvents es).key k = latchAfter k (s.key k) es := by
  induction es generalizing s with
  | nil => rfl
  | cons e es ih =>
    have ht : ∀ e ∈ es, e ≠ .quit := fun e he => h e (List.mem_cons_of_mem _ he)
    cases e with
    | press j => rw [State.applyEvents_press, ih _ ht, State.key_press]; rfl
    | release j => rw [State.applyEvents_release, ih _ ht, State.key_release]; rfl
    | quit => exact absurd rfl (h .quit List.mem_cons_self)

/-- Two lists one after the other are one list. -/
theorem State.applyEvents_append (fs gs : List Event) (s : State) (h : ∀ e ∈ fs, e ≠ .quit) :
    s.applyEvents (fs ++ gs) = (s.applyEvents fs).applyEvents gs := by
  induction fs generalizing s with
  | nil => rfl
  | cons e fs ih =>
    have ht : ∀ e ∈ fs, e ≠ .quit := fun e he => h e (List.mem_cons_of_mem _ he)
    cases e with
    | press j => exact ih _ ht
    | release j => exact ih _ ht
    | quit => exact absurd rfl (h .quit List.mem_cons_self)

/-! ## Fresh presses -/

/-- A list without a fresh press splits into two such lists, the second from the latches after the first. -/
theorem NoFreshPress.split {keys : Nibble → Bool} {fs gs : List Event} (h : NoFreshPress keys (fs ++ gs))
    (hq : ∀ e ∈ fs, e ≠ .quit) :
    NoFreshPress keys fs ∧ NoFreshPress (fun k => latchAfter k (keys k) fs) gs := by
  constructor
  · intro j as bs e
    exact h j as (bs ++ gs) (by rw [e, List.append_assoc]; rfl)
  · intro j as bs e
    rw [← latchAfter_append j (keys j) fs as hq]
    exact h j (fs ++ as) bs (by rw [e, List.append_assoc])

@[simp] theorem noFreshPress_nil (keys : Nibble → Bool) : NoFreshPress keys [] := by
  intro j fs gs e
  simp at e

/-- A press at the head finds its latch set, and no press of the rest is fresh after it. -/
@[simp] theorem noFreshPress_press (keys : Nibble → Bool) (k : Nibble) (es : List Event) :
    NoFreshPress keys (.press k :: es) ↔ keys k = true ∧ NoFreshPress (fun j => keys j || k == j) es := by
  constructor
  · exact fun h => ⟨h k [] es rfl, (NoFreshPress.split (fs := [.press k]) h (by simp)).2⟩
  · rintro ⟨hk, h⟩ j fs gs e
    cases fs with
    | nil => simp only [List.nil_append, List.cons.injEq, Event.press.injEq] at e; rw [← e.1]; exact hk
    | cons f fs => obtain ⟨rfl, rfl⟩ := List.cons.inj e; exact h j fs gs rfl

/-- After a release at the head no press of the rest is fresh. -/
@[simp] theorem noFreshPress_release (keys : Nibble → Bool) (k : Nibble) (es : List Event) :
    NoFreshPress keys (.release k :: es) ↔ NoFreshPress (fun j => keys j && k != j) es := by
  constructor
  · exact fun h => (NoFreshPress.split (fs := [.release k]) h (by simp)).2
  · rintro h j fs gs e
    cases fs with
    | nil => simp at e
    | cons f fs => obtain ⟨rfl, rfl⟩ := List.cons.inj e; exact h j fs gs rfl

/-- Where no wait can end, by the mode or by the events, the input phase keeps the mode and the registers (R223, R271). -/
theorem State.applyEvents_no_resume (es : List Event) (s : State) (hq : ∀ e ∈ es, e ≠ .quit)
    (h : (∀ x, s.mode ≠ .awaitingKey x) ∨ NoFreshPress s.key es) :
    (s.applyEvents es).mode = s.mode ∧ (s.applyEvents es).v = s.v := by
  induction es generalizing s with
  | nil => exact ⟨rfl, rfl⟩
  | cons e es ih =>
    have ht : ∀ e ∈ es, e ≠ .quit := fun e he => hq e (List.mem_cons_of_mem _ he)
    cases e with
    | press k =>
      have e : s.press k = s.setKey k true := by
        rcases State.press_cases s k with ⟨-, e⟩ | ⟨x, -, -, e⟩ | ⟨x, hm, hk, -⟩
        · exact e
        · exact e
        · rcases h with h | h
          · exact absurd hm (h x)
          · rw [((noFreshPress_press _ _ _).1 h).1] at hk; cases hk
      have hn : NoFreshPress s.key (.press k :: es) → NoFreshPress (s.press k).key es := fun h => by
        rw [show (s.press k).key = fun j => s.key j || k == j from funext fun j => s.key_press k j]
        exact ((noFreshPress_press _ _ _).1 h).2
      have hm : (s.press k).mode = s.mode := by rw [e]; rfl
      have hv : (s.press k).v = s.v := by rw [e]; rfl
      rw [State.applyEvents_press, ← hm, ← hv]
      exact ih _ ht (h.imp (fun h x => by rw [hm]; exact h x) hn)
    | release k =>
      have hn : NoFreshPress s.key (.release k :: es) → NoFreshPress (s.release k).key es := fun h => by
        rw [show (s.release k).key = fun j => s.key j && k != j from funext fun j => s.key_release k j]
        exact (noFreshPress_release _ _ _).1 h
      exact ih (s.release k) ht (h.imp (fun h => h) hn)
    | quit => exact absurd rfl (hq .quit List.mem_cons_self)

end Sys2Proof.Machine
end

