-- ==== Sys2Proof/Laws/Exec.lean ====
section
/-! SUPPORT. What each checked instruction can end in, its check written out, and how a frame is shown. -/

namespace Sys2Proof.Machine

/-! ## The checked instructions (R39, R76, R220) -/

/-- RET: the fault on an empty stack, else the popped address (R130). -/
theorem exec_ret_cases (x : Nibble) (s : State) :
    (s.stack = [] ∧ exec (.ret x) s = .next (s.raiseFault (.stackUnderflow (encode (.ret x)) s.pc))) ∨
    ∃ v rest, s.stack = v :: rest ∧ exec (.ret x) s = .next (State.setPc v { s with stack := rest }) := by
  rcases s.pop_cases with ⟨h, hp⟩ | ⟨v, rest, h, hp⟩
  · exact .inl ⟨h, by simp [exec, execRet, hp]⟩
  · exact .inr ⟨v, rest, h, by simp [exec, execRet, hp]⟩

/-- CALL: the push and the jump, or the fault on a full stack (R132). -/
theorem exec_call_eq (nnn : Addr12) (s : State) :
    exec (.call nnn) s = .next (if s.sp < 16 then State.setPc (zextAddr nnn) { s with stack := (s.pc + 2) :: s.stack }
      else s.raiseFault (.stackOverflow (encode (.call nnn)) s.pc)) := by
  by_cases h : s.sp < 16 <;> simp [exec, execCall, State.push_eq, h, Config.stackDepth]

/-- SKP: the skip with the key a register names, or the fault above 0xF (R220). -/
theorem exec_skp_cases (x : Nibble) (s : State) :
    (∃ k : Nibble, k.toNat = (s.reg x).toNat ∧ exec (.skp x) s = .next (s.skipIf (s.key k))) ∨
    (16 ≤ (s.reg x).toNat ∧ exec (.skp x) s = .next (s.raiseFault (.keyIndexOutOfBounds (encode (.skp x)) s.pc))) := by
  rcases keyCode_cases (s.reg x) with ⟨-, k, hk, e⟩ | ⟨h, hn⟩
  · exact .inl ⟨k, e, by simp [exec, execSkp, hk]⟩
  · exact .inr ⟨h, by simp [exec, execSkp, hn]⟩

/-- SKNP: the skip with the key a register names, or the fault above 0xF (R221). -/
theorem exec_sknp_cases (x : Nibble) (s : State) :
    (∃ k : Nibble, k.toNat = (s.reg x).toNat ∧ exec (.sknp x) s = .next (s.skipIf (!s.key k))) ∨
    (16 ≤ (s.reg x).toNat ∧ exec (.sknp x) s = .next (s.raiseFault (.keyIndexOutOfBounds (encode (.sknp x)) s.pc))) := by
  rcases keyCode_cases (s.reg x) with ⟨-, k, hk, e⟩ | ⟨h, hn⟩
  · exact .inl ⟨k, e, by simp [exec, execSknp, hk]⟩
  · exact .inr ⟨h, by simp [exec, execSknp, hn]⟩

/-- FX33: the digits stored, or the fault past 0xFFF (R183). -/
theorem exec_ldB_eq (x : Nibble) (s : State) :
    exec (.ldB x) s = .next (if s.iBase + 3 ≤ 4096 then
        { s.advance with mem := s.mem.writeBytes s.iBase (bcdDigits (s.reg x)) }
      else s.raiseFault (.memoryOutOfBounds (encode (.ldB x)) s.pc)) := by
  have e : s.advance.iBase = s.iBase := rfl
  simp only [exec, execLdB, State.storeRange_eq, length_bcdDigits, e, Config.memSize]
  by_cases h : s.iBase + 3 ≤ 4096
  · rw [if_pos h, if_pos h]; rfl
  · rw [if_neg h, if_neg h]; rfl

/-- FX55: the registers stored, or the fault past 0xFFF (R185). -/
theorem exec_ldMemVx_eq (x : Nibble) (s : State) :
    exec (.ldMemVx x) s = .next (if s.iBase + (x.toNat + 1) ≤ 4096 then
        { s.advance with mem := s.mem.writeBytes s.iBase (s.regsTo x) }
      else s.raiseFault (.memoryOutOfBounds (encode (.ldMemVx x)) s.pc)) := by
  have e : s.advance.iBase = s.iBase := rfl
  simp only [exec, execLdMemVx, State.storeRange_eq, State.length_regsTo, e, Config.memSize]
  by_cases h : s.iBase + (x.toNat + 1) ≤ 4096
  · rw [if_pos h, if_pos h]; rfl
  · rw [if_neg h, if_neg h]; rfl

/-- FX65: the registers loaded, or the fault past 0xFFF (R186). -/
theorem exec_ldVxMem_eq (x : Nibble) (s : State) :
    exec (.ldVxMem x) s = .next (if s.iBase + (x.toNat + 1) ≤ 4096 then
        s.advance.loadRegs 0 ((List.range (x.toNat + 1)).map fun k => s.mem.read (s.iBase + k))
      else s.raiseFault (.memoryOutOfBounds (encode (.ldVxMem x)) s.pc)) := by
  simp only [exec, execLdVxMem, State.loadRange_eq, Config.memSize]
  by_cases h : s.iBase + (x.toNat + 1) ≤ 4096
  · rw [if_pos h, if_pos h]; rfl
  · rw [if_neg h, if_neg h]; rfl

/-- DRW: the draw of the sprite bytes, or the fault past 0xFFF; with `n = 0` there is no fault (R201). -/
theorem exec_drw_eq (x y n : Nibble) (s : State) :
    exec (.drw x y n) s = .next (if s.iBase + n.toNat ≤ 4096 then
        s.advance.draw .wrap x y ((List.range n.toNat).map fun k => s.mem.read (s.iBase + k))
      else s.raiseFault (.memoryOutOfBounds (encode (.drw x y n)) s.pc)) := by
  simp only [exec, execDrw, State.loadRange_eq, Config.memSize]
  by_cases h : s.iBase + n.toNat ≤ 4096
  · rw [if_pos h, if_pos h]; rfl
  · rw [if_neg h, if_neg h]; rfl

/-! ## Faulted states -/

@[simp] theorem State.faulted_raiseFault (f : Fault) (s : State) : (s.raiseFault f).faulted = true := rfl

/-- Whether a state is faulted depends on its mode alone. -/
theorem State.faulted_congr {s t : State} (h : t.mode = s.mode) : t.faulted = s.faulted := by simp [State.faulted, h]

/-! ## Frames (R11) -/

/-- A frame from the equality of the fields outside the changed parts. -/
theorem Frame.intro {ch : List Part} {s t : State} (hv : .regs ∉ ch → t.v = s.v) (hm : .mem ∉ ch → t.mem = s.mem)
    (hi : .index ∉ ch → t.i = s.i) (hs : .stack ∉ ch → t.stack = s.stack) (hd : .delay ∉ ch → t.dt = s.dt)
    (ht : .sound ∉ ch → t.st = s.st) (hf : .display ∉ ch → t.fb = s.fb) (hk : .keys ∉ ch → t.k = s.k)
    (ho : .mode ∉ ch → t.mode = s.mode) (hl : .log ∉ ch → t.diag = s.diag)
    (hh : .host ∉ ch → t.inputs = s.inputs ∧ t.cycle = s.cycle) : Frame ch s t := by
  intro p hp
  cases p with
  | regs => exact State.reg_congr (hv hp)
  | mem => exact State.memRead_congr (hm hp)
  | index => exact hi hp
  | stack => exact hs hp
  | delay => exact hd hp
  | sound => exact ht hp
  | display => intro c r; rw [hf hp]
  | keys => exact State.key_congr (hk hp)
  | mode => exact ho hp
  | log => exact hl hp
  | host => exact hh hp

/-- A frame that allows fewer changes gives one that allows more. -/
theorem Frame.weaken {ch ch' : List Part} {s t : State} (h : Frame ch s t) (hs : ∀ p, p ∈ ch → p ∈ ch') : Frame ch' s t :=
  fun p hp => h p fun hq => hp (hs p hq)

end Sys2Proof.Machine
end

