-- ==== Sys2Proof/Laws/PerInstr.lean ====
section
/-! SUPPORT. Statements about every instruction as syntax, one lemma per constructor. -/

namespace Sys2Proof

/-- The family of an instruction: the digit its pattern begins with (30_encoding.md R108, R109). -/
def Instr.family : Instr → Nibble
  | .cls _ | .ret _ | .sys _ => 0x0
  | .jp _ => 0x1
  | .call _ => 0x2
  | .seImm _ _ => 0x3
  | .sneImm _ _ => 0x4
  | .seReg _ _ | .unimpl5 _ _ _ => 0x5
  | .ldImm _ _ => 0x6
  | .addImm _ _ => 0x7
  | .ldReg _ _ | .orReg _ _ | .andReg _ _ | .xorReg _ _ | .addReg _ _ | .subReg _ _ | .shr _ _ | .subnReg _ _ => 0x8
  | .shl _ _ | .unimpl8 _ _ _ => 0x8
  | .sneReg _ _ | .unimpl9 _ _ _ => 0x9
  | .ldI _ => 0xA
  | .jpV0 _ => 0xB
  | .rnd _ _ => 0xC
  | .drw _ _ _ => 0xD
  | .skp _ | .sknp _ | .unimplE _ _ => 0xE
  | .ldVxDt _ | .ldVxK _ | .ldDtVx _ | .ldStVx _ | .addI _ | .ldF _ | .ldB _ | .ldMemVx _ | .ldVxMem _ => 0xF
  | .unimplF _ _ => 0xF

end Sys2Proof

namespace Sys2Proof.Laws.OpField

/-- The top nibble of an instruction's word is its family (R106). -/
def Statement (i : Instr) : Prop := fieldOp (encode i) = i.family

theorem cls (x : Nibble) : Statement (.cls x) := fieldOp_wordXNN _ _ _
theorem ret (x : Nibble) : Statement (.ret x) := fieldOp_wordXNN _ _ _
theorem sys (nnn : Addr12) : Statement (.sys nnn) := fieldOp_wordA _ _
theorem jp (nnn : Addr12) : Statement (.jp nnn) := fieldOp_wordA _ _
theorem call (nnn : Addr12) : Statement (.call nnn) := fieldOp_wordA _ _
theorem seImm (x : Nibble) (nn : Byte) : Statement (.seImm x nn) := fieldOp_wordXNN _ _ _
theorem sneImm (x : Nibble) (nn : Byte) : Statement (.sneImm x nn) := fieldOp_wordXNN _ _ _
theorem seReg (x y : Nibble) : Statement (.seReg x y) := fieldOp_wordXYN _ _ _ _
theorem ldImm (x : Nibble) (nn : Byte) : Statement (.ldImm x nn) := fieldOp_wordXNN _ _ _
theorem addImm (x : Nibble) (nn : Byte) : Statement (.addImm x nn) := fieldOp_wordXNN _ _ _
theorem ldReg (x y : Nibble) : Statement (.ldReg x y) := fieldOp_wordXYN _ _ _ _
theorem orReg (x y : Nibble) : Statement (.orReg x y) := fieldOp_wordXYN _ _ _ _
theorem andReg (x y : Nibble) : Statement (.andReg x y) := fieldOp_wordXYN _ _ _ _
theorem xorReg (x y : Nibble) : Statement (.xorReg x y) := fieldOp_wordXYN _ _ _ _
theorem addReg (x y : Nibble) : Statement (.addReg x y) := fieldOp_wordXYN _ _ _ _
theorem subReg (x y : Nibble) : Statement (.subReg x y) := fieldOp_wordXYN _ _ _ _
theorem shr (x y : Nibble) : Statement (.shr x y) := fieldOp_wordXYN _ _ _ _
theorem subnReg (x y : Nibble) : Statement (.subnReg x y) := fieldOp_wordXYN _ _ _ _
theorem shl (x y : Nibble) : Statement (.shl x y) := fieldOp_wordXYN _ _ _ _
theorem sneReg (x y : Nibble) : Statement (.sneReg x y) := fieldOp_wordXYN _ _ _ _
theorem ldI (nnn : Addr12) : Statement (.ldI nnn) := fieldOp_wordA _ _
theorem jpV0 (nnn : Addr12) : Statement (.jpV0 nnn) := fieldOp_wordA _ _
theorem rnd (x : Nibble) (nn : Byte) : Statement (.rnd x nn) := fieldOp_wordXNN _ _ _
theorem drw (x y n : Nibble) : Statement (.drw x y n) := fieldOp_wordXYN _ _ _ _
theorem skp (x : Nibble) : Statement (.skp x) := fieldOp_wordXNN _ _ _
theorem sknp (x : Nibble) : Statement (.sknp x) := fieldOp_wordXNN _ _ _
theorem ldVxDt (x : Nibble) : Statement (.ldVxDt x) := fieldOp_wordXNN _ _ _
theorem ldVxK (x : Nibble) : Statement (.ldVxK x) := fieldOp_wordXNN _ _ _
theorem ldDtVx (x : Nibble) : Statement (.ldDtVx x) := fieldOp_wordXNN _ _ _
theorem ldStVx (x : Nibble) : Statement (.ldStVx x) := fieldOp_wordXNN _ _ _
theorem addI (x : Nibble) : Statement (.addI x) := fieldOp_wordXNN _ _ _
theorem ldF (x : Nibble) : Statement (.ldF x) := fieldOp_wordXNN _ _ _
theorem ldB (x : Nibble) : Statement (.ldB x) := fieldOp_wordXNN _ _ _
theorem ldMemVx (x : Nibble) : Statement (.ldMemVx x) := fieldOp_wordXNN _ _ _
theorem ldVxMem (x : Nibble) : Statement (.ldVxMem x) := fieldOp_wordXNN _ _ _
theorem unimpl5 (x y n : Nibble) : Statement (.unimpl5 x y n) := fieldOp_wordXYN _ _ _ _
theorem unimpl8 (x y n : Nibble) : Statement (.unimpl8 x y n) := fieldOp_wordXYN _ _ _ _
theorem unimpl9 (x y n : Nibble) : Statement (.unimpl9 x y n) := fieldOp_wordXYN _ _ _ _
theorem unimplE (x : Nibble) (nn : Byte) : Statement (.unimplE x nn) := fieldOp_wordXNN _ _ _
theorem unimplF (x : Nibble) (nn : Byte) : Statement (.unimplF x nn) := fieldOp_wordXNN _ _ _

end Sys2Proof.Laws.OpField
end

