-- ==== Sys2Proof/Laws/Run.lean ====
section
/-! SUPPORT. Runs of the CORE, one cycle at a time. -/

namespace Sys2Proof.Machine

/-- A run of any machine of the host's interface goes on from the next state. -/
theorem run_succ_of_next (M : Host.Core) (n : Nat) {s t : M.State} (h : M.step s = .next t) : M.run (n + 1) s = M.run n t := by
  rw [Host.Core.run, h]

@[simp] theorem core_run_zero (s : State) : core.run 0 s = .next s := rfl

/-- A run of the CORE of one more cycle goes on from the next state. -/
theorem core_run_succ {s t : State} (n : Nat) (h : step s = .next t) : core.run (n + 1) s = core.run n t :=
  run_succ_of_next core n h

end Sys2Proof.Machine
end

