-- ==== Sys2Proof/Tests/Slice0.lean ====
section
/-! SUPPORT. Tests: the checks of `WellFormed`, the words of every row, single steps on the spec's vectors (95_test_vectors.md
V1 to V72) and examples, and a state that meets the hypotheses of each statement. -/

namespace Sys2Proof.Tests

open Sys2Proof Sys2Proof.Machine

/-! ## WellFormed refuses an ill-formed term of each check (R107, R109) -/

theorem test_wf_sys_selectors : (Instr.sys 0x1E0).wellFormed = false ∧ (Instr.sys 0x0EE).wellFormed = false := by decide
theorem test_wf_unimpl5 : (Instr.unimpl5 1 2 0).wellFormed = false := by decide
theorem test_wf_unimpl8 : ∀ n : Nibble, (Instr.unimpl8 1 2 n).wellFormed = false ↔ n.toNat < 8 ∨ n = 0xE := by decide
theorem test_wf_unimpl9 : (Instr.unimpl9 1 2 0).wellFormed = false := by decide
theorem test_wf_unimplE : (Instr.unimplE 1 0x9E).wellFormed = false ∧ (Instr.unimplE 1 0xA1).wellFormed = false := by decide
theorem test_wf_unimplF :
    ∀ nn ∈ [0x07, 0x0A, 0x15, 0x18, 0x1E, 0x29, 0x33, 0x55, 0x65], (Instr.unimplF 1 nn).wellFormed = false := by decide

/-! ## One word of every row, bit by bit from the patterns of R108 and R109 -/

theorem test_decode_family0 :
    decodeWord 0b0000000011100000 = .cls 0 ∧ decodeWord 0b0000000111101110 = .ret 1 ∧
    decodeWord 0b0000000100100011 = .sys 0x123 ∧ decodeWord 0b0000000000000000 = .sys 0 := by decide
theorem test_decode_jumps :
    decodeWord 0b0001001000110100 = .jp 0x234 ∧ decodeWord 0b0010001100000000 = .call 0x300 ∧
    decodeWord 0b1011001100000000 = .jpV0 0x300 ∧ decodeWord 0b1010010000000000 = .ldI 0x400 := by decide
theorem test_decode_immediates :
    decodeWord 0b0011001100101010 = .seImm 3 0x2A ∧ decodeWord 0b0100001100000001 = .sneImm 3 1 ∧
    decodeWord 0b0110101000101011 = .ldImm 0xA 0x2B ∧ decodeWord 0b0111000100000010 = .addImm 1 2 ∧
    decodeWord 0b1100000100001111 = .rnd 1 0x0F := by decide
theorem test_decode_families_5_and_9 :
    decodeWord 0b0101000100100000 = .seReg 1 2 ∧ decodeWord 0b0101000100100001 = .unimpl5 1 2 1 ∧
    decodeWord 0b1001000100100000 = .sneReg 1 2 ∧ decodeWord 0b1001000100101111 = .unimpl9 1 2 0xF := by decide
theorem test_decode_family8 :
    decodeWord 0b1000000100100000 = .ldReg 1 2 ∧ decodeWord 0b1000000100100001 = .orReg 1 2 ∧
    decodeWord 0b1000000100100010 = .andReg 1 2 ∧ decodeWord 0b1000000100100011 = .xorReg 1 2 ∧
    decodeWord 0b1000000100100100 = .addReg 1 2 ∧ decodeWord 0b1000000100100101 = .subReg 1 2 ∧
    decodeWord 0b1000000100100110 = .shr 1 2 ∧ decodeWord 0b1000000100100111 = .subnReg 1 2 ∧
    decodeWord 0b1000000100101110 = .shl 1 2 ∧ decodeWord 0b1000000100101000 = .unimpl8 1 2 8 := by decide
theorem test_decode_draw : decodeWord 0b1101000100100101 = .drw 1 2 5 := by decide
theorem test_decode_familyE :
    decodeWord 0b1110000110011110 = .skp 1 ∧ decodeWord 0b1110000110100001 = .sknp 1 ∧
    decodeWord 0b1110000100000000 = .unimplE 1 0 := by decide
theorem test_decode_familyF :
    decodeWord 0b1111001000000111 = .ldVxDt 2 ∧ decodeWord 0b1111001100001010 = .ldVxK 3 ∧
    decodeWord 0b1111001000010101 = .ldDtVx 2 ∧ decodeWord 0b1111001000011000 = .ldStVx 2 ∧
    decodeWord 0b1111001000011110 = .addI 2 ∧ decodeWord 0b1111001100101001 = .ldF 3 ∧
    decodeWord 0b1111000000110011 = .ldB 0 ∧ decodeWord 0b1111001101010101 = .ldMemVx 3 ∧
    decodeWord 0b1111001101100101 = .ldVxMem 3 ∧ decodeWord 0b1111000111111111 = .unimplF 1 0xFF := by decide

/-- Big-endian bytes (R72), a lone byte, and the table's numbering. -/
theorem test_decode_bytes :
    decode [0x12, 0x34, 0x56] = .ok (.jp 0x234, [0x56]) ∧ decode [0x12] = .error .truncated ∧
    encodeBytes (.jp 0x234) = [0x12, 0x34] ∧ decodeTableWord 16 0x1234 = some (.jp 0x234) := by decide

/-! ## One step -/

/-- A reading `g` of the state one cycle after `word` is placed in the reset state and `f` has set the start. -/
def after {α : Type} (word : Nat) (f : State → State) (g : State → α) : Option α :=
  match step (f (State.reset.withFetchWord 16 word)) with
  | .next t => some (g t)
  | .fault _ => none
  | .refused _ => none

/-- A state with some registers set. -/
def regs (xs : List (Nibble × Byte)) (s : State) : State := xs.foldl (fun s p => s.setReg p.1 p.2) s

/-- A state that waits for the inputs of one cycle. -/
def input (es : List Event) (due : Bool) (r : Byte) (s : State) : State := { s with inputs := [⟨es, due, r⟩] }

/-- A grid with exactly the listed cells set. -/
def pixels (ps : List (Fin 64 × Fin 32)) : FrameBuffer := ps.foldl (fun fb p => fb.flip p.1 p.2) FrameBuffer.clear

/-- The bytes of memory at the listed addresses. -/
def bytesAt (as : List Nat) (s : State) : List (Option Byte) := as.map fun a => s.memRead a

/-- V1: an odd program counter fetches (R77). -/
theorem test_odd_fetch :
    (match step { State.reset with pc := 0x201, mem := [(0x202, 0x60)] } with
      | .next t => some (t.diag, t.pc)
      | _ => none) = some ([⟨.unimplemented, 0x0060, 0x201⟩], 0x203) := by decide
/-- V2. -/
theorem test_last_fetch :
    (match step { State.reset with pc := 0xFFE } with
      | .next t => some (t.diag, t.pc)
      | _ => none) = some ([⟨.unimplemented, 0, 0xFFE⟩], 0x1000) := by decide
/-- V3. -/
theorem test_fetch_out_of_bounds :
    (match step { State.reset with pc := 0xFFF } with
      | .next t => some (t.mode, t.diag, t.pc)
      | _ => none) = some (.halted (.fault (.fetchOutOfBounds 0xFFF)), [], 0xFFF) := by decide
/-- V4, V7: reported, no skip. -/
theorem test_reserved_words : ∀ w ∈ [0x5121, 0x8128, 0x812F, 0x912F, 0xE100, 0xF101, 0xF1FF],
    after w (regs [(1, 1), (2, 1)]) (fun t => (t.diag, t.pc, t.reg 1, t.reg 0xF)) =
      some ([⟨.unimplemented, BitVec.ofNat 16 w, 0x200⟩], 0x202, 1, 0) := by decide
/-- V5, V6: the policy that this spec does not take. -/
theorem test_refuse_policy (s : State) :
    unimplementedWord .refuse 0x5121 s = .refused (.reservedWord 0x5121 s.pc) ∧
    after 0x0123 id (fun t => t.diag) = some [⟨.unimplemented, 0x0123, 0x200⟩] := ⟨rfl, by decide⟩
/-- V8, and the example of R133. -/
theorem test_se_imm : after 0x3000 id (fun t => (t.pc, t.diag)) = some (0x204, []) ∧
    after 0x332A (regs [(3, 0x2B)]) State.pc = some 0x202 := by decide
/-- The example of R134. -/
theorem test_sne_imm : after 0x4301 id State.pc = some 0x204 ∧ after 0x4300 id State.pc = some 0x202 := by decide
/-- V9. -/
theorem test_ret_underflow : after 0x00EE id (fun t => (t.mode, t.pc)) =
    some (.halted (.fault (.stackUnderflow 0x00EE 0x200)), 0x200) := by decide
/-- V10. -/
theorem test_ret : after 0x01EE (fun s => { s with stack := [0x300] }) (fun t => (t.pc, t.sp)) = some (0x300, 0) := by decide
/-- V11. -/
theorem test_call_sixteenth : after 0x2300 (fun s => { s with stack := List.replicate 15 0x222 })
    (fun t => (t.entry 15, t.entry 14, t.sp, t.pc)) = some (some 0x202, some 0x222, 16, 0x300) := by decide
/-- V12. -/
theorem test_call_overflow : after 0x2300 (fun s => { s with stack := List.replicate 16 0x222 })
    (fun t => (t.mode, t.sp, t.pc)) = some (.halted (.fault (.stackOverflow 0x2300 0x200)), 16, 0x200) := by decide
/-- V13. -/
theorem test_jp : after 0x1FFF id State.pc = some 0xFFF := by decide
/-- V15, and the example of R135. -/
theorem test_se_reg : after 0x5110 id State.pc = some 0x204 ∧
    after 0x5120 (regs [(1, 7), (2, 8)]) State.pc = some 0x202 := by decide
/-- V16, and the example of R136. -/
theorem test_sne_reg : after 0x9110 id State.pc = some 0x202 ∧
    after 0x9120 (regs [(1, 7), (2, 8)]) State.pc = some 0x204 := by decide
/-- V17. -/
theorem test_jp_v0 : after 0xBFFF (regs [(0, 0xFF)]) State.pc = some 0x10FE := by decide
/-- T1, and `6F07`. -/
theorem test_ld_imm : after 0x6A2B id (fun t => (t.reg 0xA, t.pc)) = some (0x2B, 0x202) ∧
    after 0x6F07 id (fun t => t.reg 0xF) = some 7 := by decide
/-- V19, V20. -/
theorem test_add_imm : after 0x7101 (regs [(1, 0xFF), (0xF, 0x55)]) (fun t => (t.reg 1, t.reg 0xF)) = some (0, 0x55) ∧
    after 0x7FFF (regs [(0xF, 1)]) (fun t => t.reg 0xF) = some 0 := by decide
/-- V22. -/
theorem test_ld_reg : after 0x8F20 (regs [(2, 9)]) (fun t => t.reg 0xF) = some 9 := by decide
/-- The examples of R153 to R155; V21 for VF. -/
theorem test_logic :
    after 0x8121 (regs [(1, 0x0F), (2, 0xF0), (0xF, 1)]) (fun t => (t.reg 1, t.reg 0xF)) = some (0xFF, 1) ∧
    after 0x8122 (regs [(1, 0x3C), (2, 0x0F)]) (fun t => t.reg 1) = some 0x0C ∧
    after 0x8123 (regs [(1, 0xFF), (2, 0x0F)]) (fun t => t.reg 1) = some 0xF0 := by decide
/-- T2 (255 is no carry), V23. -/
theorem test_add_reg : after 0x8124 (regs [(1, 0x80), (2, 0x7F), (0xF, 9)]) (fun t => (t.reg 1, t.reg 0xF)) = some (0xFF, 0) ∧
    after 0x8114 (regs [(1, 0x80)]) (fun t => (t.reg 1, t.reg 0xF)) = some (0, 1) := by decide
/-- V24, with the order that this spec does not take. -/
theorem test_add_flag_order : after 0x8F14 (regs [(0xF, 0xFF), (1, 1)]) (fun t => t.reg 0xF) = some 1 ∧
    (writeResultFlag .resultLast 0xF 0 true State.reset).reg 0xF = 0 := by decide
/-- The example of R157, V25. -/
theorem test_sub_reg : after 0x8125 (regs [(1, 5), (2, 7), (0xF, 9)]) (fun t => (t.reg 1, t.reg 0xF)) = some (0xFE, 0) ∧
    after 0x8F15 (regs [(0xF, 5), (1, 3)]) (fun t => t.reg 0xF) = some 1 := by decide
/-- V26, V27. -/
theorem test_subn_reg : after 0x8127 (regs [(1, 3), (2, 5)]) (fun t => (t.reg 1, t.reg 0xF)) = some (2, 1) ∧
    after 0x8127 (regs [(1, 9), (2, 9)]) (fun t => (t.reg 1, t.reg 0xF)) = some (0, 1) := by decide
/-- V29, V30. -/
theorem test_shr : after 0x8126 (regs [(1, 4), (2, 0xFF)]) (fun t => (t.reg 1, t.reg 2, t.reg 0xF)) = some (2, 0xFF, 0) ∧
    after 0x8F06 (regs [(0xF, 3)]) (fun t => t.reg 0xF) = some 1 := by decide
/-- The example of R160, V32. -/
theorem test_shl : after 0x810E (regs [(1, 0x81)]) (fun t => (t.reg 1, t.reg 0xF)) = some (2, 1) ∧
    after 0x8F0E (regs [(0xF, 0x40)]) (fun t => t.reg 0xF) = some 0 := by decide
/-- The example of R162. -/
theorem test_rnd : after 0xC10F (input [] false 0xB7) (fun t => t.reg 1) = some 7 := by decide
/-- V35. -/
theorem test_ld_i : after 0xAFFF id State.i = some 0xFFF := by decide
/-- V36, V37. -/
theorem test_add_i : after 0xF11E (fun s => (regs [(1, 1)] s).setI 0xFFF) (fun t => (t.i, t.reg 0xF)) = some (0, 0) ∧
    after 0xF11E (fun s => (regs [(1, 0xFF)] s).setI 0xFFE) State.i = some 0x0FD := by decide
/-- V38, V39. -/
theorem test_ld_f : after 0xF129 (regs [(1, 0x10)]) State.i = some 0x50 ∧
    after 0xF129 (regs [(1, 0xFF)]) State.i = some 0x4FB := by decide
/-- V43. -/
theorem test_ld_b : after 0xF133 (fun s => (regs [(1, 123)] s).setI 0xFFD) (bytesAt [0xFFC, 0xFFD, 0xFFE, 0xFFF]) =
    some [some 0, some 1, some 2, some 3] := by decide
/-- V44. -/
theorem test_ld_b_fault : after 0xF133 (fun s => (regs [(1, 255)] s).setI 0xFFE)
    (fun t => (t.mode, bytesAt [0xFFE, 0xFFF] t)) =
    some (.halted (.fault (.memoryOutOfBounds 0xF133 0x200)), [some 0, some 0]) := by decide
/-- V46. -/
theorem test_dump_fault : after 0xFF55 (State.setI 0xFF1) State.mode =
    some (.halted (.fault (.memoryOutOfBounds 0xFF55 0x200))) := by decide
/-- V47. -/
theorem test_dump : after 0xF155 (regs [(0, 0xAA), (1, 0xBB)]) (bytesAt [0, 1, 2]) =
    some [some 0xAA, some 0xBB, some 0x90] := by decide
/-- V48. -/
theorem test_load : after 0xF065 (fun s => { regs [(1, 7)] s with i := 0x400, mem := s.mem ++ [(0x400, 9), (0x401, 8)] })
    (fun t => (t.reg 0, t.reg 1, t.i)) = some (9, 7, 0x400) := by decide
/-- V58. -/
theorem test_cls : after 0x00E0 (fun s => (regs [(0xF, 1)] s).setFb (pixels [(2, 0), (40, 10)]))
    (fun t => (decide (t.fb = FrameBuffer.clear), t.reg 0xF)) = some (true, 1) := by decide
/-- V57. -/
theorem test_draw_collision : after 0xD001 (State.setFb (pixels [(2, 0), (40, 10)]))
    (fun t => (decide (t.fb = pixels [(0, 0), (1, 0), (3, 0), (40, 10)]), t.reg 0xF)) = some (true, 1) := by decide
/-- V55, under both edge policies. -/
theorem test_draw_edges : after 0xD125 (fun s => (regs [(1, 0), (2, 30)] s).setI 5) (fun t => decide (t.fb =
      pixels [(2, 30), (1, 31), (2, 31), (2, 0), (2, 1), (1, 2), (2, 2), (3, 2)])) = some true ∧
    decide (((regs [(2, 30)] State.reset).draw .clip 1 2 [0x20, 0x60, 0x20, 0x20, 0x70]).fb =
      pixels [(2, 30), (1, 31), (2, 31)]) = true := by decide
/-- V60, and the example of R220. -/
theorem test_key_skips : after 0xE1A1 (regs [(1, 0xF)]) State.pc = some 0x204 ∧
    after 0xE19E (fun s => (regs [(1, 5)] s).setKey 5 true) State.pc = some 0x204 := by decide
/-- V59. -/
theorem test_key_index : after 0xE19E (regs [(1, 16)]) State.mode =
    some (.halted (.fault (.keyIndexOutOfBounds 0xE19E 0x200))) := by decide
/-- V61, V62. -/
theorem test_input_before_execute :
    after 0xE19E (fun s => input [.press 3] false 0 (regs [(1, 3)] s)) State.pc = some 0x204 ∧
    after 0xE19E (fun s => input [.press 3, .release 3] false 0 (regs [(1, 3)] s)) State.pc = some 0x202 := by decide
/-- The example of R222. -/
theorem test_wait : after 0xF30A id (fun t => (t.mode, t.pc, t.reg 3)) = some (.awaitingKey 3, 0x202, 0) := by decide
/-- V63: a held key does not resume; its release and press do, and the next instruction runs in the same cycle. -/
theorem test_resume :
    after 0x6001 (fun s => (input [.press 4] false 0 (s.setKey 4 true)).setMode (.awaitingKey 3)) State.mode =
      some (.awaitingKey 3) ∧
    after 0x6001 (fun s => (input [.release 4, .press 4] false 0 (s.setKey 4 true)).setMode (.awaitingKey 3))
      (fun t => (t.reg 3, t.mode, t.reg 0, t.pc)) = some (4, .running, 1, 0x202) := by decide
/-- V64. -/
theorem test_first_press_resumes : after 0x1200 (fun s => (input [.press 9, .press 2] false 0 s).setMode (.awaitingKey 3))
    (fun t => (t.reg 3, t.key 9, t.key 2, t.mode)) = some (9, true, true, .running) := by decide
/-- V65, V66. -/
theorem test_quit :
    after 0x1200 (fun s => (input [.quit, .press 1] false 0 s).setMode (.awaitingKey 3))
      (fun t => (t.mode, t.reg 3, t.key 1)) = some (.halted .quit, 0, false) ∧
    after 0x1200 (fun s => (input [.press 9, .quit] false 0 s).setMode (.awaitingKey 3))
      (fun t => (t.mode, t.reg 3, t.key 9)) = some (.halted .quit, 9, true) := by decide
/-- V67, V68. -/
theorem test_delay_timer :
    after 0xF115 (fun s => input [] true 0 (regs [(1, 1)] s)) State.dt = some 0 ∧
    after 0xF107 (fun s => input [] true 0 (s.setDt 5)) (fun t => (t.reg 1, t.dt)) = some (5, 4) := by decide
/-- The example of R226, without and with a tick. -/
theorem test_sound_timer : after 0xF218 (regs [(2, 10)]) State.st = some 10 ∧
    after 0xF218 (fun s => input [] true 0 (regs [(2, 10)] s)) State.st = some 9 := by decide
/-- V69, V70. -/
theorem test_tick : after 0x6000 (input [] true 0) State.dt = some 0 ∧
    after 0x6000 (fun s => ((input [] true 0 (s.setDt 3)).setSt 1).setMode (.awaitingKey 3))
      (fun t => (t.dt, t.st, t.mode)) = some (2, 0, .awaitingKey 3) := by decide
/-- V71. -/
theorem test_fault_skips_the_timers : after 0x00EE (fun s => input [] true 0 (s.setDt 5)) State.dt = some 5 := by decide
/-- V72. -/
theorem test_halted : after 0x6000 (fun s => (input [.press 1] true 0 (s.setDt 5)).setMode (.halted .quit))
    (fun t => (t.dt, t.key 1, t.pc)) = some (5, false, 0x200) := by decide

/-! ## A state and operands that meet the hypotheses of each statement

Each is at a boundary of the statement's range where it has one. -/

/-- The outcome is a next state of which `p` holds. -/
def answers (o : Host.Outcome State Fault Refusal) (p : State → Bool) : Bool :=
  match o with
  | .next t => p t
  | .fault _ => false
  | .refused _ => false

theorem next_of_answers {o : Host.Outcome State Fault Refusal} {p : State → Bool} (h : answers o p = true) :
    ∃ t, o = .next t ∧ p t = true := by
  cases o with
  | next t => exact ⟨t, rfl, h⟩
  | fault => cases h
  | refused => cases h

/-- The running state whose word at 0x200 is `w`. -/
def at200 (w : Nat) : State := State.reset.withFetchWord 16 w

/-- A memory that lists the program's word alone is canonical. -/
theorem witness_memory : (at200 0x6A2B).mem.wf ∧ State.reset.mem.wf ∧ Memory.wf [(0x200, 0x60), (0xFFF, 1)] := by decide

theorem witness_DecodeOfEncodeIsTheInstruction :
    (Instr.unimplF 0xF 0xFF).wellFormed = true ∧ (Instr.sys 0xFFF).wellFormed = true := by decide

theorem witness_StepRunsTheDecodedInstruction :
    (∀ r, (at200 0x6A2B).mode ≠ .halted r) ∧
    ((at200 0x6A2B).applyEvents (at200 0x6A2B).currentInput.events).mode = .running ∧ (at200 0x6A2B).pc.toNat ≤ 0xFFE ∧
    (at200 0x6A2B).memRead (at200 0x6A2B).pc.toNat = some 0x6A ∧
    (at200 0x6A2B).memRead ((at200 0x6A2B).pc.toNat + 1) = some 0x2B ∧ decode [0x6A, 0x2B] = .ok (.ldImm 0xA 0x2B, []) ∧
    ∃ t, exec (.ldImm 0xA 0x2B) ((at200 0x6A2B).applyEvents (at200 0x6A2B).currentInput.events) = .next t :=
  ⟨nofun, by decide, by decide, by decide, by decide, by decide, _, rfl⟩

theorem witness_PlacedWordIsTheNextInstruction :
    State.reset.mem.wf ∧ decodeTableWord 16 0x6A2B = some (.ldImm 0xA 0x2B) := by decide

theorem witness_FetchAboveLimitHalts :
    (∀ r, (State.reset.setPc 0xFFF).mode ≠ .halted r) ∧ ((State.reset.setPc 0xFFF).applyEvents
      (State.reset.setPc 0xFFF).currentInput.events).mode = .running ∧ 0xFFE < (State.reset.setPc 0xFFF).pc.toNat :=
  ⟨nofun, by decide, by decide⟩

theorem witness_NextFetchSeesStoredRegisters :
    (State.reset.setI 0xFFE).mem.wf ∧ (State.reset.setI 0xFFE).iBase + (1 : Nibble).toNat ≤ 0xFFF ∧
    (0 : Nibble).toNat < (1 : Nibble).toNat := by decide

theorem witness_InvariantHoldsAtStart : ∃ t, loadRom [0x12, 0x00] State.reset = .next t := ⟨_, rfl⟩

theorem test_reset_sound : State.reset.Sound :=
  { memWf := by decide, iBound := by decide, pcBound := by decide, spBound := by decide, entries := nofun }

theorem witness_StepKeepsTheInvariant : State.reset.Inv ∧ ∃ t, step State.reset = .next t ∧ (!t.faulted) = true :=
  ⟨fun _ => test_reset_sound, next_of_answers (by decide)⟩

theorem witness_SameBytesSameMemory : Memory.wf [(0x200, 0x60)] ∧
    ∀ a, a < 4096 → Memory.read [(0x200, 0x60)] a = Memory.read [(0x200, 0x60)] a := ⟨by decide, fun _ _ => rfl⟩

theorem witness_RomLoadPlacesBytesOrRefuses : State.reset.mem.wf ∧
    (List.replicate 3584 (0x12 : Byte)).length ≤ 3584 ∧ 3584 < (List.replicate 3585 (0x12 : Byte)).length :=
  ⟨by decide, Nat.le_of_eq List.length_replicate, by rw [List.length_replicate]; decide⟩

theorem witness_BootPlacesFontAndRom : (List.replicate 80 (0xFF : Byte)).length = 80 ∧
    (List.replicate 3584 (0x12 : Byte)).length ≤ 3584 :=
  ⟨List.length_replicate, Nat.le_of_eq List.length_replicate⟩

/-- A state with `n` return addresses on the stack. -/
def depth (n : Nat) : State := { State.reset with stack := List.replicate n 0x222 }

theorem witness_PushFollowsTheDepth : (depth 15).sp < 16 ∧ 16 ≤ (depth 16).sp := by decide

/-- The last call that succeeds and the first return that does (CallResult, ReturnResult, CallThenReturnRestores). -/
theorem witness_CallResult_ReturnResult : (depth 15).sp < 16 ∧ 0 < (depth 1).sp := by decide

theorem witness_StackViolationsHalt : (depth 0).sp = 0 ∧ (depth 16).sp = 16 := by decide

theorem witness_RegisterSkipResults : (State.reset.reg 1).toNat = (0 : Byte).toNat ∧
    (State.reset.reg 1).toNat ≠ (1 : Byte).toNat ∧ (State.reset.reg 1).toNat = (State.reset.reg 2).toNat ∧
    ((regs [(1, 1)] State.reset).reg 1).toNat ≠ ((regs [(1, 1)] State.reset).reg 2).toNat := by decide

/-- An instruction that runs on, for every arm of the statement. -/
theorem witness_ProgramCounterOfEveryInstruction :
    ∀ i ∈ ([.ret 0, .jp 0xFFF, .call 0x300, .jpV0 0xFFF, .seImm 1 0, .sneImm 1 0, .seReg 1 2, .sneReg 1 2, .skp 1, .sknp 1,
      .ldVxK 3, .cls 0] : List Instr),
    answers (exec i (depth 1)) (fun t => !t.faulted) = true := by decide

theorem witness_FlagsAreZeroOrOne : writesFlag (.addReg 1 2) = true ∧
    ∃ t, exec (.addReg 1 2) State.reset = .next t ∧ ∀ r, t.mode ≠ .halted r := ⟨rfl, _, rfl, nofun⟩

theorem witness_RegistersAreWrittenOnlyByTheirWriters :
    (∃ t, exec (.addReg 1 2) State.reset = .next t ∧ t.faulted = false) ∧ namesDest (.addReg 1 2) 2 = false ∧
    (2 : Nibble) ≠ vf ∧ (∃ t, exec (.cls 0) State.reset = .next t ∧ t.faulted = false) ∧ writesFlag (.cls 0) = false :=
  ⟨⟨_, rfl, rfl⟩, rfl, by decide, ⟨_, rfl, rfl⟩, rfl⟩

/-- The last addresses that fit (StoreBcdResult, RegisterDumpResult, RegisterLoadResult, DumpThenLoadRestores). -/
theorem witness_StoreBcdResult_RegisterDumpResult : (State.reset.setI 0xFFD).mem.wf ∧
    (State.reset.setI 0xFFD).iBase ≤ 0xFFD ∧ (State.reset.setI 0xFF0).mem.wf ∧
    (State.reset.setI 0xFF0).iBase + (0xF : Nibble).toNat ≤ 0xFFF := by decide

/-- The first addresses that do not fit, one for every arm (AccessPastMemoryHalts). -/
theorem witness_AccessPastMemoryHalts : (State.reset.setI 0xFFE).iBase + 2 > 0xFFF ∧
    (State.reset.setI 0xFF1).iBase + (0xF : Nibble).toNat > 0xFFF ∧
    (2 : Nibble).toNat > 0 ∧ (State.reset.setI 0xFFF).iBase + (2 : Nibble).toNat - 1 > 0xFFF := by decide

theorem witness_PlaceFollowsThePolicy : (63 < 64 ∧ 31 < 32) ∧ (64 ≤ 64 ∨ 32 ≤ 0) ∧ (64 ≤ 0 ∨ 32 ≤ 32) := by decide

/-- A draw of no row at the end of memory, of its last byte, and of 15 rows (DrawResult, DrawTwiceRestoresThePixels). -/
theorem witness_DrawResult_DrawTwiceRestoresThePixels : (0 : Nibble).toNat = 0 ∧
    (State.reset.setI 0xFFF).iBase + (1 : Nibble).toNat - 1 ≤ 0xFFF ∧
    (State.reset.setI 0xFF1).iBase + (0xF : Nibble).toNat - 1 ≤ 0xFFF ∧ (1 : Nibble) ≠ vf ∧ (2 : Nibble) ≠ vf := by decide

/-- Both collision clauses of DrawResult: a sprite pixel on a clear and on a set cell. -/
theorem witness_DrawResult_collision :
    spriteAt [0x80] 0 0 0 0 ∧ FrameBuffer.clear.pixel 0 0 = false ∧ (FrameBuffer.clear.flip 0 0).pixel 0 0 = true :=
  ⟨⟨0, 0, by decide, by decide, by decide, 0x80, rfl, by decide⟩, by decide, by decide⟩

theorem witness_OnlyDrawAndClearWriteTheDisplay : (∀ x, Instr.jp 0x234 ≠ .cls x) ∧
    (∀ x y n, Instr.jp 0x234 ≠ .drw x y n) ∧ ∃ t, exec (.jp 0x234) State.reset = .next t ∧ t.faulted = false :=
  ⟨nofun, nofun, _, rfl, rfl⟩

theorem witness_KeySkipResults : ((regs [(1, 0xF)] State.reset).reg 1).toNat = (0xF : Nibble).toNat ∧
    State.reset.key 0xF = false ∧ (State.reset.setKey 0xF true).key 0xF = true := by decide

theorem witness_KeyIndexAboveFifteenHalts : 15 < ((regs [(1, 16)] State.reset).reg 1).toNat := by decide

/-- A waiting state with the events of one cycle. -/
def waiting (es : List Event) : State := (input es false 0 State.reset).setMode (.awaitingKey 3)

/-- A held key pressed, released and pressed again: the last press is the fresh one. -/
def heldThenFresh : State := (waiting [.press 4, .release 4, .press 4, .release 4]).setKey 4 true

theorem witness_PressResumesAWait : heldThenFresh.mode = .awaitingKey 3 ∧
    heldThenFresh.currentInput.events = [.press 4, .release 4] ++ .press 4 :: [.release 4] ∧
    (∀ e ∈ [Event.press 4, .release 4] ++ [.release 4], e ≠ .quit) ∧
    NoFreshPress heldThenFresh.key [.press 4, .release 4] ∧
    latchAfter 4 (heldThenFresh.key 4) [.press 4, .release 4] = false :=
  ⟨rfl, rfl, by decide, by simp; decide, by decide⟩

/-- No event before the fresh press. -/
theorem witness_PressResumesAWait_first : (waiting [.press 4]).currentInput.events = [] ++ .press 4 :: [] ∧
    NoFreshPress (waiting [.press 4]).key [] ∧ latchAfter 4 ((waiting [.press 4]).key 4) [] = false :=
  ⟨rfl, by simp, by decide⟩

/-- Every clause: a press last, a release last, no event of a key, a running CORE, and a wait with a held key. -/
theorem witness_InputPhaseFollowsTheEvents : (∀ e ∈ [Event.release 7, .press 4], e ≠ .quit) ∧
    [Event.release 7, .press 4] = [.release 7] ++ .press 4 :: [] ∧
    [Event.release 7, .press 4] = [] ++ .release 7 :: [.press 4] ∧
    (∀ e ∈ [Event.press 4], e ≠ .press 7 ∧ e ≠ .release 7) ∧
    (∀ e ∈ [Event.release 7, .press 4], e ≠ .press 3 ∧ e ≠ .release 3) ∧ (∀ x, State.reset.mode ≠ .awaitingKey x) ∧
    NoFreshPress heldThenFresh.key [.release 7, .press 4] :=
  ⟨by decide, rfl, rfl, by decide, by decide, nofun, by simp; decide⟩

theorem witness_QuitEndsTheRun : (∀ r, (waiting [.press 9, .quit, .press 1]).mode ≠ .halted r) ∧
    (waiting [.press 9, .quit, .press 1]).currentInput.events = [.press 9] ++ .quit :: [.press 1] ∧
    ∀ e ∈ [Event.press 9], e ≠ .quit := ⟨nofun, rfl, by decide⟩

theorem witness_HaltedIsFinal : (State.reset.setMode (.halted .quit)).mode = .halted .quit := rfl

/-- Both timer clauses: a tick on a running state, and none. -/
theorem witness_TimersTickAfterTheInstruction (due : Bool) : ∃ s t : State, (∀ r, s.mode ≠ .halted r) ∧
    s.currentInput.timerDue = due ∧ executePhase (s.applyEvents s.currentInput.events) = .next t ∧
    decide (t.faulted = false ∧ t.mode ≠ .halted .quit) = true :=
  ⟨input [] due 0 (at200 0x6A2B), (next_of_answers (by cases due <;> decide)).imp fun _ h => ⟨nofun, rfl, h⟩⟩

/-- A release and a press of a held key in one cycle, and a tick. -/
theorem witness_TimersCountDuringAWait : ∃ (cs rest : List CycleInput) (s : State), s.mode = .awaitingKey 3 ∧
    s.inputs = cs ++ rest ∧ 0 < ticksDue cs ∧ (∀ e ∈ cs.flatMap CycleInput.events, e ≠ .quit) ∧
    NoFreshPress s.key (cs.flatMap CycleInput.events) :=
  ⟨[⟨[.release 7, .press 4], true, 0⟩], [],
    { heldThenFresh with inputs := [⟨[.release 7, .press 4], true, 0⟩] }, rfl, rfl, by decide, by decide, by simp; decide⟩

theorem witness_UnimplementedWordsAreReported : ∀ i ∈ ([.sys 0x123, .unimpl5 1 2 1, .unimpl8 1 2 8, .unimpl9 1 2 0xF,
    .unimplE 1 0, .unimplF 1 0xFF] : List Instr), reported i = true := by decide

theorem witness_InstructionsWriteOnlyTheirParts :
    ∃ t, exec (.drw 1 2 5) State.reset = .next t ∧ decide (t.mode = .running) = true := next_of_answers (by decide)

theorem witness_OnlyTheHostWritesTheKeypad : (at200 0x6A2B).currentInput.events = [] ∧
    (∀ r, (at200 0x6A2B).mode ≠ .halted r) ∧ (∃ t, step (at200 0x6A2B) = .next t ∧ (!t.faulted) = true) ∧
    (∃ t, step (input [.press 4] false 0 (at200 0x6A2B)) = .next t ∧ (!t.faulted && t.key 4) = true) ∧
    ∃ t, exec (.skp 1) State.reset = .next t ∧ (!t.faulted) = true :=
  ⟨rfl, nofun, next_of_answers (by decide), next_of_answers (by decide), next_of_answers (by decide)⟩

theorem witness_NoInstructionReadsTheSoundTimer :
    (∃ t, exec (.ldStVx 1) State.reset = .next t ∧ t.faulted = false) ∧
    (∃ t, exec (.jp 0x234) State.reset = .next t ∧ t.faulted = false) ∧ ∀ x, Instr.jp 0x234 ≠ .ldStVx x :=
  ⟨⟨_, rfl, rfl⟩, ⟨_, rfl, rfl⟩, nofun⟩

theorem witness_DiagnosticLogOnlyGrows : ∃ t, step State.reset = .next t ∧ decide (t.diag.length = 1) = true :=
  next_of_answers (by decide)

theorem witness_RandomAndResult : (input [] false 0x5A State.reset).inputs.head? = some ⟨[], false, 0x5A⟩ := rfl

end Sys2Proof.Tests
end

section
/-! The unchecked jump and the register skips (40_control_flow.md R131, R133 to R136): each writes the program counter
alone. -/

namespace Sys2Proof.Machine

/-! ## Frames of the program counter's writes (R11) -/

theorem Frame.setPc (s : State) (a : Word) : Frame [] s (s.setPc a) :=
  Frame.intro (fun _ => rfl) (fun _ => rfl) (fun _ => rfl) (fun _ => rfl) (fun _ => rfl) (fun _ => rfl) (fun _ => rfl)
    (fun _ => rfl) (fun _ => rfl) (fun _ => rfl) (fun _ => ⟨rfl, rfl⟩)

/-- Either outcome of a skip is one write of the program counter. -/
theorem Frame.skipIf (s : State) (c : Bool) : Frame [] s (s.skipIf c) := by
  cases c with
  | true => exact Frame.setPc s (s.pc + 4)
  | false => exact Frame.setPc s (s.pc + 2)

/-! ## The instructions as shared operations -/

theorem exec_jp_eq (nnn : Addr12) (s : State) : exec (.jp nnn) s = .next (s.setPc (zextAddr nnn)) := rfl

theorem exec_seImm_eq (x : Nibble) (nn : Byte) (s : State) :
    exec (.seImm x nn) s = .next (s.skipIf (s.reg x == nn)) := rfl

theorem exec_sneImm_eq (x : Nibble) (nn : Byte) (s : State) :
    exec (.sneImm x nn) s = .next (s.skipIf (s.reg x != nn)) := rfl

theorem exec_seReg_eq (x y : Nibble) (s : State) :
    exec (.seReg x y) s = .next (s.skipIf (s.reg x == s.reg y)) := rfl

theorem exec_sneReg_eq (x y : Nibble) (s : State) :
    exec (.sneReg x y) s = .next (s.skipIf (s.reg x != s.reg y)) := rfl

/-! ## The two conditions of a register skip, in numbers (R133 to R136) -/

theorem State.skipIf_beq_pc (s : State) (a b : Byte) :
    (a.toNat = b.toNat → (s.skipIf (a == b)).pc = s.pc + 4) ∧
    (a.toNat ≠ b.toNat → (s.skipIf (a == b)).pc = s.pc + 2) := by
  constructor
  · intro h
    have hc : (a == b) = true := beq_iff_eq.2 (BitVec.eq_of_toNat_eq h)
    simp [hc]
  · intro h
    have hc : (a == b) = false := beq_false_of_ne (BitVec.toNat_ne_iff_ne.1 h)
    simp [hc]

theorem State.skipIf_bne_pc (s : State) (a b : Byte) :
    (a.toNat ≠ b.toNat → (s.skipIf (a != b)).pc = s.pc + 4) ∧
    (a.toNat = b.toNat → (s.skipIf (a != b)).pc = s.pc + 2) := by
  constructor
  · intro h
    have hc : (a != b) = true := bne_iff_ne.2 (BitVec.toNat_ne_iff_ne.1 h)
    simp [hc]
  · intro h
    have hc : (a != b) = false := bne_eq_false_iff_eq.2 (BitVec.eq_of_toNat_eq h)
    simp [hc]

/-! ## The statements -/

/-- Settles O16: the jump writes the zero-extended target to the program counter, and that write has an empty frame. -/
theorem jumpResult : Obligations.JumpResult := by
  intro nnn s
  exact ⟨_, exec_jp_eq nnn s, toNat_zextAddr nnn, Frame.setPc s _⟩

/-- Settles O23: each of the four is `skipIf` on an equality or its negation, which is decided on the two numbers. -/
theorem registerSkipResults : Obligations.RegisterSkipResults := by
  intro x y nn s
  refine ⟨?seImm, ?sneImm, ?seReg, ?sneReg⟩
  case seImm => exact ⟨_, exec_seImm_eq x nn s, Frame.skipIf s _, s.skipIf_beq_pc (s.reg x) nn⟩
  case sneImm => exact ⟨_, exec_sneImm_eq x nn s, Frame.skipIf s _, s.skipIf_bne_pc (s.reg x) nn⟩
  case seReg => exact ⟨_, exec_seReg_eq x y s, Frame.skipIf s _, s.skipIf_beq_pc (s.reg x) (s.reg y)⟩
  case sneReg => exact ⟨_, exec_sneReg_eq x y s, Frame.skipIf s _, s.skipIf_bne_pc (s.reg x) (s.reg y)⟩

end Sys2Proof.Machine
end

section
/-! The loads, the immediate addition and the bitwise logic (41_alu.md R150 to R155): each advances and writes one register,
with no flag. -/

namespace Sys2Proof.Machine

/-! ## The frame of one register's write (R11, R31) -/

theorem RegsBut.advance_setReg (s : State) (x : Nibble) (b : Byte) : RegsBut [x] s (s.advance.setReg x b) :=
  fun j hj => State.reg_setReg_ne s.advance x j b (List.ne_of_not_mem_cons hj)

theorem Frame.advance_setReg (s : State) (x : Nibble) (b : Byte) : Frame [.regs] s (s.advance.setReg x b) :=
  Frame.intro (absurd List.mem_cons_self) (fun _ => rfl) (fun _ => rfl) (fun _ => rfl) (fun _ => rfl) (fun _ => rfl)
    (fun _ => rfl) (fun _ => rfl) (fun _ => rfl) (fun _ => rfl) (fun _ => ⟨rfl, rfl⟩)

/-- What an instruction that advances and writes `V[x]` leaves outside `V[x]`. -/
theorem State.advance_setReg_rest (s : State) (x : Nibble) (b : Byte) :
    (s.advance.setReg x b).pc = s.pc + 2 ∧ RegsBut [x] s (s.advance.setReg x b) ∧ Frame [.regs] s (s.advance.setReg x b) :=
  ⟨rfl, RegsBut.advance_setReg s x b, Frame.advance_setReg s x b⟩

/-! ## The instructions as one register's write -/

theorem exec_ldImm_eq (x : Nibble) (nn : Byte) (s : State) :
    exec (.ldImm x nn) s = .next (s.advance.setReg x nn) := rfl

theorem exec_addImm_eq (x : Nibble) (nn : Byte) (s : State) :
    exec (.addImm x nn) s = .next (s.advance.setReg x (s.reg x + nn)) := rfl

theorem exec_ldReg_eq (x y : Nibble) (s : State) :
    exec (.ldReg x y) s = .next (s.advance.setReg x (s.reg y)) := rfl

theorem exec_orReg_eq (x y : Nibble) (s : State) :
    exec (.orReg x y) s = .next (s.advance.setReg x (s.reg x ||| s.reg y)) := rfl

theorem exec_andReg_eq (x y : Nibble) (s : State) :
    exec (.andReg x y) s = .next (s.advance.setReg x (s.reg x &&& s.reg y)) := rfl

theorem exec_xorReg_eq (x y : Nibble) (s : State) :
    exec (.xorReg x y) s = .next (s.advance.setReg x (s.reg x ^^^ s.reg y)) := rfl

/-! ## The statements -/

/-- Settles O25: the one register written is `V[x]`, with the immediate. -/
theorem loadImmediateResult : Obligations.LoadImmediateResult := by
  intro x nn s
  exact ⟨_, exec_ldImm_eq x nn s, State.reg_setReg_self s.advance x nn, s.advance_setReg_rest x nn⟩

/-- Settles O26: the one register written is `V[x]`, with a sum of bytes, which is the sum modulo 256. -/
theorem addImmediateResult : Obligations.AddImmediateResult := by
  intro x nn s
  refine ⟨_, exec_addImm_eq x nn s, ?sum, s.advance_setReg_rest x _⟩
  case sum => rw [State.reg_setReg_self, BitVec.toNat_add]

/-- Settles O27: each of the four writes `V[x]` alone; the bit of a bitwise result is that operation on the two bits. -/
theorem copyAndLogicResults : Obligations.CopyAndLogicResults := by
  intro x y s
  refine ⟨?copy, ?or, ?and, ?xor⟩
  case copy => exact ⟨_, exec_ldReg_eq x y s, State.reg_setReg_self s.advance x _, s.advance_setReg_rest x _⟩
  case or =>
    refine ⟨_, exec_orReg_eq x y s, fun k => ?_, s.advance_setReg_rest x _⟩
    rw [State.reg_setReg_self, BitVec.getLsbD_or]
  case and =>
    refine ⟨_, exec_andReg_eq x y s, fun k => ?_, s.advance_setReg_rest x _⟩
    rw [State.reg_setReg_self, BitVec.getLsbD_and]
  case xor =>
    refine ⟨_, exec_xorReg_eq x y s, fun k => ?_, s.advance_setReg_rest x _⟩
    rw [State.reg_setReg_self, BitVec.getLsbD_xor]

end Sys2Proof.Machine
end

section
/-! The writes of the index register (42_index_memory.md R180 to R182): each advances and writes `I`, with no flag. -/

namespace Sys2Proof.Machine

/-! ## The frame of the index register's write (R11) -/

theorem Frame.advance_setI (s : State) (a : Word) : Frame [.index] s (s.advance.setI a) :=
  Frame.intro (fun _ => rfl) (fun _ => rfl) (absurd List.mem_cons_self) (fun _ => rfl) (fun _ => rfl) (fun _ => rfl)
    (fun _ => rfl) (fun _ => rfl) (fun _ => rfl) (fun _ => rfl) (fun _ => ⟨rfl, rfl⟩)

/-- What an instruction that advances and writes `I` leaves outside `I`. -/
theorem State.advance_setI_rest (s : State) (a : Word) :
    (s.advance.setI a).pc = s.pc + 2 ∧ Frame [.index] s (s.advance.setI a) :=
  ⟨rfl, Frame.advance_setI s a⟩

/-! ## The instructions as one write of `I` -/

theorem exec_ldI_eq (nnn : Addr12) (s : State) : exec (.ldI nnn) s = .next (s.advance.setI (zextAddr nnn)) := rfl

theorem exec_addI_eq (x : Nibble) (s : State) :
    exec (.addI x) s = .next (s.advance.setI (BitVec.ofNat 16 ((s.i.toNat + (s.reg x).toNat) % 4096))) := rfl

theorem exec_ldF_eq (x : Nibble) (s : State) :
    exec (.ldF x) s = .next (s.advance.setI (BitVec.ofNat 16 ((s.reg x).toNat * 5))) := rfl

/-! ## The statements -/

/-- Settles O34: each writes `I` alone, and the number written fits 16 bits: it is below 4096 for `LD I` and `ADD I`, and
at most 5 * 255 for `LD F`. -/
theorem indexRegisterResults : Obligations.IndexRegisterResults := by
  intro nnn x s
  refine ⟨?ldI, ?addI, ?ldF⟩
  case ldI => exact ⟨_, exec_ldI_eq nnn s, toNat_zextAddr nnn, s.advance_setI_rest _⟩
  case addI =>
    have hsum : (s.i.toNat + (s.reg x).toNat) % 4096 < 2 ^ 16 := by omega
    exact ⟨_, exec_addI_eq x s, (BitVec.toNat_ofNat _ _).trans (Nat.mod_eq_of_lt hsum), s.advance_setI_rest _⟩
  case ldF =>
    have hbyte := (s.reg x).isLt
    have hglyph : (s.reg x).toNat * 5 < 2 ^ 16 := by omega
    exact ⟨_, exec_ldF_eq x s, (BitVec.toNat_ofNat _ _).trans (Nat.mod_eq_of_lt hglyph), s.advance_setI_rest _⟩

end Sys2Proof.Machine
end

section
/-! The timer moves (44_input_timers.md R224 to R226): each advances and writes one register or one timer, with no flag. -/

namespace Sys2Proof.Machine

/-! ## The frames of the timers' writes (R11) -/

theorem Frame.advance_setDt (s : State) (b : Byte) : Frame [.delay] s (s.advance.setDt b) :=
  Frame.intro (fun _ => rfl) (fun _ => rfl) (fun _ => rfl) (fun _ => rfl) (absurd List.mem_cons_self) (fun _ => rfl)
    (fun _ => rfl) (fun _ => rfl) (fun _ => rfl) (fun _ => rfl) (fun _ => ⟨rfl, rfl⟩)

theorem Frame.advance_setSt (s : State) (b : Byte) : Frame [.sound] s (s.advance.setSt b) :=
  Frame.intro (fun _ => rfl) (fun _ => rfl) (fun _ => rfl) (fun _ => rfl) (fun _ => rfl) (absurd List.mem_cons_self)
    (fun _ => rfl) (fun _ => rfl) (fun _ => rfl) (fun _ => rfl) (fun _ => ⟨rfl, rfl⟩)

/-! ## The instructions as one write -/

theorem exec_ldVxDt_eq (x : Nibble) (s : State) : exec (.ldVxDt x) s = .next (s.advance.setReg x s.dt) := rfl

theorem exec_ldDtVx_eq (x : Nibble) (s : State) : exec (.ldDtVx x) s = .next (s.advance.setDt (s.reg x)) := rfl

theorem exec_ldStVx_eq (x : Nibble) (s : State) : exec (.ldStVx x) s = .next (s.advance.setSt (s.reg x)) := rfl

/-! ## The statements -/

/-- Settles O52: the load is one register's write, with its frame; each store writes its timer alone, from the register as it
was before the instruction. -/
theorem timerMoveResults : Obligations.TimerMoveResults := by
  intro x s
  refine ⟨?load, ?storeDelay, ?storeSound⟩
  case load =>
    obtain ⟨hpc, hregs, hframe⟩ := s.advance_setReg_rest x s.dt
    exact ⟨_, exec_ldVxDt_eq x s, State.reg_setReg_self s.advance x s.dt, hregs, hpc, hframe⟩
  case storeDelay =>
    exact ⟨_, exec_ldDtVx_eq x s, State.setDt_dt s.advance _, State.advance_pc s, Frame.advance_setDt s _⟩
  case storeSound =>
    exact ⟨_, exec_ldStVx_eq x s, State.setSt_st s.advance _, State.advance_pc s, Frame.advance_setSt s _⟩

end Sys2Proof.Machine
end

section
/-! The decoder against the encoder (30_encoding.md R103 to R109; 20_memory.md R72): one lemma per family says what its
decoder reads, and the word-level statements split on the family. -/

namespace Sys2Proof

/-! ## The reserved selectors reach the last arm of their family's decoder (R109) -/

theorem decode0_of_not_selector (w : Word) (h : isSelector0 (fieldNN w) = false) : decode0 w = .sys (fieldNNN w) := by
  simp only [isSelector0, Bool.or_eq_false_iff, beq_eq_false_iff_ne] at h
  obtain ⟨hcls, hret⟩ := h
  rw [decode0, if_neg hcls, if_neg hret]

theorem decode8_of_not_selector (w : Word) (h : isSelector8 (fieldN w) = false) :
    decode8 w = .unimpl8 (fieldX w) (fieldY w) (fieldN w) := by
  unfold decode8
  split <;> simp_all [isSelector8]

theorem decodeE_of_not_selector (w : Word) (h : isSelectorE (fieldNN w) = false) :
    decodeE w = .unimplE (fieldX w) (fieldNN w) := by
  unfold decodeE
  split <;> simp_all [isSelectorE]

theorem decodeF_of_not_selector (w : Word) (h : isSelectorF (fieldNN w) = false) :
    decodeF w = .unimplF (fieldX w) (fieldNN w) := by
  unfold decodeF
  split <;> simp_all [isSelectorF]

/-! ## Round trips (R103 to R110) -/

/-- The decoder undoes the encoder. A defined row's selector is a literal, so its arm is reached by computation; a reserved
row's selector is none of its family's by well-formedness. -/
theorem decodeWord_encode (i : Instr) (h : i.wellFormed = true) : decodeWord (encode i) = i := by
  cases i with
  | sys nnn =>
    have hsel : isSelector0 (nnn.extractLsb' 0 8) = false := by simpa only [Instr.wellFormed, Bool.not_eq_true'] using h
    simp [encode, decodeWord, decode0_of_not_selector, hsel]
  | unimpl5 x y n =>
    have hn : ¬ n = 0#4 := bne_iff_ne.1 h
    simp [encode, decodeWord, decode5, hn]
  | unimpl8 x y n =>
    have hsel : isSelector8 n = false := by simpa only [Instr.wellFormed, Bool.not_eq_true'] using h
    simp [encode, decodeWord, decode8_of_not_selector, hsel]
  | unimpl9 x y n =>
    have hn : ¬ n = 0#4 := bne_iff_ne.1 h
    simp [encode, decodeWord, decode9, hn]
  | unimplE x nn =>
    have hsel : isSelectorE nn = false := by simpa only [Instr.wellFormed, Bool.not_eq_true'] using h
    simp [encode, decodeWord, decodeE_of_not_selector, hsel]
  | unimplF x nn =>
    have hsel : isSelectorF nn = false := by simpa only [Instr.wellFormed, Bool.not_eq_true'] using h
    simp [encode, decodeWord, decodeF_of_not_selector, hsel]
  | cls | ret => simp [encode, decodeWord, decode0]
  | seReg => simp [encode, decodeWord, decode5]
  | ldReg | orReg | andReg | xorReg | addReg | subReg | shr | subnReg | shl => simp [encode, decodeWord, decode8]
  | sneReg => simp [encode, decodeWord, decode9]
  | skp | sknp => simp [encode, decodeWord, decodeE]
  | ldVxDt | ldVxK | ldDtVx | ldStVx | addI | ldF | ldB | ldMemVx | ldVxMem => simp [encode, decodeWord, decodeF]
  | jp | call | seImm | sneImm | ldImm | addImm | ldI | jpV0 | rnd | drw => simp [encode, decodeWord]

theorem nibble_cases : ∀ a : Nibble, a = 0x0#4 ∨ a = 0x1#4 ∨ a = 0x2#4 ∨ a = 0x3#4 ∨ a = 0x4#4 ∨ a = 0x5#4 ∨ a = 0x6#4 ∨
    a = 0x7#4 ∨ a = 0x8#4 ∨ a = 0x9#4 ∨ a = 0xA#4 ∨ a = 0xB#4 ∨ a = 0xC#4 ∨ a = 0xD#4 ∨ a = 0xE#4 ∨ a = 0xF#4 := by
  decide

theorem isSelector8_cases : ∀ n : Nibble, isSelector8 n = true →
    n = 0x0#4 ∨ n = 0x1#4 ∨ n = 0x2#4 ∨ n = 0x3#4 ∨ n = 0x4#4 ∨ n = 0x5#4 ∨ n = 0x6#4 ∨ n = 0x7#4 ∨ n = 0xE#4 := by
  decide

/-! ## Every family's decoder gives a well-formed instruction with the decoded word (R103, R110) -/

/-- `i` is a well-formed instruction and `w` is its word. -/
def IsInstrOf (i : Instr) (w : Word) : Prop := i.wellFormed = true ∧ encode i = w

theorem isInstrOf_of_fieldsA {i : Instr} {w : Word} (hwf : i.wellFormed = true)
    (he : encode i = wordA (fieldOp w) (fieldNNN w)) : IsInstrOf i w :=
  ⟨hwf, he.trans (wordA_fields w)⟩

theorem isInstrOf_of_fieldsXNN {i : Instr} {w : Word} (hwf : i.wellFormed = true)
    (he : encode i = wordXNN (fieldOp w) (fieldX w) (fieldNN w)) : IsInstrOf i w :=
  ⟨hwf, he.trans (wordXNN_fields w)⟩

theorem isInstrOf_of_fieldsXYN {i : Instr} {w : Word} (hwf : i.wellFormed = true)
    (he : encode i = wordXYN (fieldOp w) (fieldX w) (fieldY w) (fieldN w)) : IsInstrOf i w :=
  ⟨hwf, he.trans (wordXYN_fields w)⟩

theorem isInstrOf_decode0 {w : Word} (h : fieldOp w = 0x0#4) : IsInstrOf (decode0 w) w := by
  by_cases hsel : isSelector0 (fieldNN w) = false
  · have hnn : (fieldNNN w).extractLsb' 0 8 = fieldNN w := by rw [← fieldNN_wordA (fieldOp w), wordA_fields]
    rw [decode0_of_not_selector w hsel]
    exact isInstrOf_of_fieldsA (by rw [Instr.wellFormed, hnn, hsel]; rfl) (by rw [h]; rfl)
  · unfold decode0
    split
    · rename_i hcls
      exact isInstrOf_of_fieldsXNN rfl (by rw [h, hcls]; rfl)
    · split
      · rename_i hret
        exact isInstrOf_of_fieldsXNN rfl (by rw [h, hret]; rfl)
      · simp_all [isSelector0]

theorem isInstrOf_decode5 {w : Word} (h : fieldOp w = 0x5#4) : IsInstrOf (decode5 w) w := by
  unfold decode5
  split
  · rename_i hn
    exact isInstrOf_of_fieldsXYN rfl (by rw [h, hn]; rfl)
  · rename_i hn
    exact isInstrOf_of_fieldsXYN (bne_iff_ne.2 hn) (by rw [h]; rfl)

theorem isInstrOf_decode8 {w : Word} (h : fieldOp w = 0x8#4) : IsInstrOf (decode8 w) w := by
  by_cases hsel : isSelector8 (fieldN w) = false
  · rw [decode8_of_not_selector w hsel]
    exact isInstrOf_of_fieldsXYN (by rw [Instr.wellFormed, hsel]; rfl) (by rw [h]; rfl)
  · unfold decode8
    split
    case h_10 =>
      have hcases := isSelector8_cases (fieldN w)
      simp_all
    all_goals
      rename_i hn
      exact isInstrOf_of_fieldsXYN rfl (by rw [h, hn]; rfl)

theorem isInstrOf_decode9 {w : Word} (h : fieldOp w = 0x9#4) : IsInstrOf (decode9 w) w := by
  unfold decode9
  split
  · rename_i hn
    exact isInstrOf_of_fieldsXYN rfl (by rw [h, hn]; rfl)
  · rename_i hn
    exact isInstrOf_of_fieldsXYN (bne_iff_ne.2 hn) (by rw [h]; rfl)

theorem isInstrOf_decodeE {w : Word} (h : fieldOp w = 0xE#4) : IsInstrOf (decodeE w) w := by
  by_cases hsel : isSelectorE (fieldNN w) = false
  · rw [decodeE_of_not_selector w hsel]
    exact isInstrOf_of_fieldsXNN (by rw [Instr.wellFormed, hsel]; rfl) (by rw [h]; rfl)
  · unfold decodeE
    split
    case h_3 => simp_all [isSelectorE]
    all_goals
      rename_i hnn
      exact isInstrOf_of_fieldsXNN rfl (by rw [h, hnn]; rfl)

theorem isInstrOf_decodeF {w : Word} (h : fieldOp w = 0xF#4) : IsInstrOf (decodeF w) w := by
  by_cases hsel : isSelectorF (fieldNN w) = false
  · rw [decodeF_of_not_selector w hsel]
    exact isInstrOf_of_fieldsXNN (by rw [Instr.wellFormed, hsel]; rfl) (by rw [h]; rfl)
  · unfold decodeF
    split
    case h_10 => simp_all [isSelectorF]
    all_goals
      rename_i hnn
      exact isInstrOf_of_fieldsXNN rfl (by rw [h, hnn]; rfl)

/-- The encoder undoes the decoder, and every word's instruction is well-formed. -/
theorem isInstrOf_decodeWord (w : Word) : IsInstrOf (decodeWord w) w := by
  unfold decodeWord
  split
  case h_1 h => exact isInstrOf_decode0 h
  case h_6 h => exact isInstrOf_decode5 h
  case h_9 h => exact isInstrOf_decode8 h
  case h_10 h => exact isInstrOf_decode9 h
  case h_15 h => exact isInstrOf_decodeE h
  case h_16 =>
    have hcases := nibble_cases (fieldOp w)
    exact isInstrOf_decodeF (by simp_all)
  case h_2 h | h_3 h | h_11 h | h_12 h => exact isInstrOf_of_fieldsA rfl (by rw [h]; rfl)
  case h_4 h | h_5 h | h_7 h | h_8 h | h_13 h => exact isInstrOf_of_fieldsXNN rfl (by rw [h]; rfl)
  case h_14 h => exact isInstrOf_of_fieldsXYN rfl (by rw [h]; rfl)

/-! ## Fields as numbers (R103) -/

theorem toNat_fieldOp (w : Word) : (fieldOp w).toNat = w.toNat / 4096 := by
  have := w.isLt
  simp only [fieldOp, BitVec.extractLsb'_toNat, Nat.shiftRight_eq_div_pow]; omega

theorem toNat_fieldN (w : Word) : (fieldN w).toNat = w.toNat % 16 := by
  simp [fieldN, BitVec.extractLsb'_toNat]

theorem toNat_fieldNN (w : Word) : (fieldNN w).toNat = w.toNat % 256 := by
  simp [fieldNN, BitVec.extractLsb'_toNat]

theorem toNat_wordOfBytes (hi lo : Byte) : (wordOfBytes hi lo).toNat = hi.toNat * 256 + lo.toNat := by
  have := lo.isLt
  rw [wordOfBytes, BitVec.toNat_append, ← Nat.shiftLeft_add_eq_or_of_lt lo.isLt, Nat.shiftLeft_eq]

/-! ## The reported words of each family (R109) -/

open Machine

theorem reported_decode0 (w : Word) : reported (decode0 w) = true ↔ w.toNat % 256 ∉ [0xE0, 0xEE] := by
  rw [← toNat_fieldNN]
  unfold decode0
  split
  · simp_all [reported]
  · split
    · simp_all [reported]
    · simp [reported]; bv_omega

theorem reported_decode5 (w : Word) : reported (decode5 w) = true ↔ w.toNat % 16 ≠ 0 := by
  rw [← toNat_fieldN]
  unfold decode5
  split
  · simp_all [reported]
  · simp [reported]; bv_omega

theorem reported_decode9 (w : Word) : reported (decode9 w) = true ↔ w.toNat % 16 ≠ 0 := by
  rw [← toNat_fieldN]
  unfold decode9
  split
  · simp_all [reported]
  · simp [reported]; bv_omega

theorem isSelector8_eq_false_iff : ∀ n : Nibble,
    isSelector8 n = false ↔ n.toNat ∈ [0x8, 0x9, 0xA, 0xB, 0xC, 0xD, 0xF] := by decide

theorem reported_decode8 (w : Word) :
    reported (decode8 w) = true ↔ w.toNat % 16 ∈ [0x8, 0x9, 0xA, 0xB, 0xC, 0xD, 0xF] := by
  rw [← toNat_fieldN, ← isSelector8_eq_false_iff]
  by_cases hsel : isSelector8 (fieldN w) = false
  · simp [decode8_of_not_selector w hsel, hsel, reported]
  · unfold decode8
    split
    case h_10 =>
      have hcases := isSelector8_cases (fieldN w)
      simp_all
    all_goals simpa [reported] using hsel

theorem reported_decodeE (w : Word) : reported (decodeE w) = true ↔ w.toNat % 256 ∉ [0x9E, 0xA1] := by
  rw [← toNat_fieldNN]
  unfold decodeE
  split
  · simp_all [reported]
  · simp_all [reported]
  · simp_all [reported, BitVec.toNat_eq]

theorem reported_decodeF (w : Word) : reported (decodeF w) = true ↔
    w.toNat % 256 ∉ [0x07, 0x0A, 0x15, 0x18, 0x1E, 0x29, 0x33, 0x55, 0x65] := by
  rw [← toNat_fieldNN]
  unfold decodeF
  split
  case h_10 => simp_all [reported, BitVec.toNat_eq]
  all_goals simp_all [reported]

/-! ## The statements -/

/-- Settles O2: the two bytes make the word again, and the decoder undoes the encoder on it. -/
theorem decodeOfEncodeIsTheInstruction : Obligations.DecodeOfEncodeIsTheInstruction := by
  intro i rest hwf
  calc decode (encodeBytes i ++ rest)
      = .ok (decodeWord (wordOfBytes (highByte (encode i)) (lowByte (encode i))), rest) := rfl
    _ = .ok (i, rest) := by rw [wordOfBytes_bytes, decodeWord_encode i hwf]

/-- Settles O3: the instruction is the one that `decodeWord` gives. -/
theorem everyWordIsOneInstruction : Obligations.EveryWordIsOneInstruction := by
  intro hi lo rest
  obtain ⟨hwf, hword⟩ := isInstrOf_decodeWord (wordOfBytes hi lo)
  exact ⟨_, rfl, hwf, by rw [hword, toNat_wordOfBytes]⟩

/-- Settles O4: only the families 0, 5, 8, 9, E and F have reserved selectors. -/
theorem reportedWordsAreTheReservedGroups : Obligations.ReportedWordsAreTheReservedGroups := by
  intro w
  rw [← toNat_fieldOp]
  unfold decodeWord
  split
  case h_1 h => simp [h, reported_decode0]
  case h_6 h => simp [h, reported_decode5]
  case h_9 h => simp [h, reported_decode8]
  case h_10 h => simp [h, reported_decode9]
  case h_15 h => simp [h, reported_decodeE]
  case h_16 =>
    have hcases := nibble_cases (fieldOp w)
    have h : fieldOp w = 0xF#4 := by simp_all
    simp [h, reported_decodeF]
  all_goals
    rename_i h
    simp [h, reported]

/-- Settles O1: each word is a closed term, and the decoder computes. -/
theorem specExampleWordsDecode : Obligations.SpecExampleWordsDecode := by
  unfold Obligations.SpecExampleWordsDecode
  decide

end Sys2Proof
end

section
/-! Everything an instruction can do, said once (00_scope.md R11; 60_exceptions.md R252): it ends in a next state, which is
inside its frame or is the fault of the state before. The instructions stand here as shared operations, with the frame of
each operation. -/

namespace Sys2Proof.Machine

/-! ## The unchecked instructions as shared operations -/

theorem exec_cls_eq (x : Nibble) (s : State) : exec (.cls x) s = .next (s.advance.setFb FrameBuffer.clear) := rfl

theorem exec_jpV0_eq (nnn : Addr12) (s : State) :
    exec (.jpV0 nnn) s = .next (s.setPc (zextAddr nnn + zextByte (s.reg 0))) := rfl

theorem exec_addReg_eq (x y : Nibble) (s : State) : exec (.addReg x y) s =
    .next (writeResultFlag .flagLast x (s.reg x + s.reg y) (carryFlag (s.reg x) (s.reg y)) s.advance) := rfl

theorem exec_subReg_eq (x y : Nibble) (s : State) : exec (.subReg x y) s =
    .next (writeResultFlag .flagLast x (s.reg x - s.reg y) (noBorrowFlag (s.reg x) (s.reg y)) s.advance) := rfl

theorem exec_subnReg_eq (x y : Nibble) (s : State) : exec (.subnReg x y) s =
    .next (writeResultFlag .flagLast x (s.reg y - s.reg x) (noBorrowFlag (s.reg y) (s.reg x)) s.advance) := rfl

theorem exec_shr_eq (x y : Nibble) (s : State) : exec (.shr x y) s =
    .next (writeResultFlag .flagLast x (s.reg x >>> 1) (shiftedOutRight (s.reg x)) s.advance) := rfl

theorem exec_shl_eq (x y : Nibble) (s : State) : exec (.shl x y) s =
    .next (writeResultFlag .flagLast x (s.reg x <<< 1) (shiftedOutLeft (s.reg x)) s.advance) := rfl

theorem exec_rnd_eq (x : Nibble) (nn : Byte) (s : State) :
    exec (.rnd x nn) s = .next (s.advance.setReg x (s.currentInput.rnd &&& nn)) := rfl

theorem exec_ldVxK_eq (x : Nibble) (s : State) : exec (.ldVxK x) s = .next (s.advance.setMode (.awaitingKey x)) := rfl

/-- Every word of R109 is one report (R240). -/
theorem exec_reported_eq {i : Instr} (s : State) (h : reported i = true) :
    exec i s = .next (s.advance.report .unimplemented (encode i) s.pc) := by
  cases i with
  | sys | unimpl5 | unimpl8 | unimpl9 | unimplE | unimplF => rfl
  | _ => cases h

/-! ## The checked instructions on either side of their check -/

/-- RET with an entry on the stack (R130). -/
theorem exec_ret_of_stack (x : Nibble) {s : State} {v : Word} {rest : List Word} (h : s.stack = v :: rest) :
    exec (.ret x) s = .next (State.setPc v { s with stack := rest }) := by
  rcases exec_ret_cases x s with ⟨hempty, -⟩ | ⟨v', rest', hstack, e⟩
  · cases h.symm.trans hempty
  · cases h.symm.trans hstack
    exact e

/-- RET with no entry on the stack (R253). -/
theorem exec_ret_of_empty (x : Nibble) {s : State} (h : s.stack = []) :
    exec (.ret x) s = .next (s.raiseFault (.stackUnderflow (encode (.ret x)) s.pc)) := by
  rcases exec_ret_cases x s with ⟨-, e⟩ | ⟨v, rest, hstack, -⟩
  · exact e
  · cases h.symm.trans hstack

/-- CALL with room on the stack (R132). -/
theorem exec_call_of_room (nnn : Addr12) (s : State) (h : s.sp < 16) :
    exec (.call nnn) s = .next (State.setPc (zextAddr nnn) { s with stack := (s.pc + 2) :: s.stack }) := by
  rw [exec_call_eq, if_pos h]

/-- CALL with no room on the stack (R253). -/
theorem exec_call_of_full (nnn : Addr12) (s : State) (h : ¬ s.sp < 16) :
    exec (.call nnn) s = .next (s.raiseFault (.stackOverflow (encode (.call nnn)) s.pc)) := by
  rw [exec_call_eq, if_neg h]

/-- SKP with a key code (R220). -/
theorem exec_skp_of_key {x k : Nibble} {s : State} (h : k.toNat = (s.reg x).toNat) :
    exec (.skp x) s = .next (s.skipIf (s.key k)) := by
  rcases exec_skp_cases x s with ⟨k', hk', e⟩ | ⟨hbig, -⟩
  · rw [e, BitVec.eq_of_toNat_eq (h.trans hk'.symm)]
  · have := k.isLt
    omega

/-- SKNP with a key code (R221). -/
theorem exec_sknp_of_key {x k : Nibble} {s : State} (h : k.toNat = (s.reg x).toNat) :
    exec (.sknp x) s = .next (s.skipIf (!s.key k)) := by
  rcases exec_sknp_cases x s with ⟨k', hk', e⟩ | ⟨hbig, -⟩
  · rw [e, BitVec.eq_of_toNat_eq (h.trans hk'.symm)]
  · have := k.isLt
    omega

/-- SKP above 0xF (R255). -/
theorem exec_skp_of_no_key {x : Nibble} {s : State} (h : 15 < (s.reg x).toNat) :
    exec (.skp x) s = .next (s.raiseFault (.keyIndexOutOfBounds (encode (.skp x)) s.pc)) := by
  rcases exec_skp_cases x s with ⟨k, hk, -⟩ | ⟨-, e⟩
  · have := k.isLt
    omega
  · exact e

/-- SKNP above 0xF (R255). -/
theorem exec_sknp_of_no_key {x : Nibble} {s : State} (h : 15 < (s.reg x).toNat) :
    exec (.sknp x) s = .next (s.raiseFault (.keyIndexOutOfBounds (encode (.sknp x)) s.pc)) := by
  rcases exec_sknp_cases x s with ⟨k, hk, -⟩ | ⟨-, e⟩
  · have := k.isLt
    omega
  · exact e

/-- A fault is a halt with its record, and keeps the log (R252). -/
theorem halts_of_raiseFault {o : Host.Outcome State Fault Refusal} {s : State} {f : Fault} (h : o = .next (s.raiseFault f)) :
    ∃ t, o = .next t ∧ t.mode = .halted (.fault f) ∧ t.diag = s.diag :=
  ⟨_, h, rfl, rfl⟩

/-! ## Frames one after the other (R11) -/

theorem keeps_trans {s t u : State} {p : Part} (h : keeps s t p) (h' : keeps t u p) : keeps s u p := by
  cases p with
  | regs | keys | mem => exact fun a => (h' a).trans (h a)
  | display => exact fun c r => (h' c r).trans (h c r)
  | host => exact ⟨h'.1.trans h.1, h'.2.trans h.2⟩
  | index | stack | delay | sound | mode | log => exact h'.trans h

theorem Frame.trans {ch : List Part} {s t u : State} (h : Frame ch s t) (h' : Frame ch t u) : Frame ch s u :=
  fun p hp => keeps_trans (h p hp) (h' p hp)

/-! ## The frames of the shared operations (R11) -/

theorem Frame.advance_setFb (s : State) (f : FrameBuffer) : Frame [.display] s (s.advance.setFb f) :=
  Frame.intro (fun _ => rfl) (fun _ => rfl) (fun _ => rfl) (fun _ => rfl) (fun _ => rfl) (fun _ => rfl)
    (absurd List.mem_cons_self) (fun _ => rfl) (fun _ => rfl) (fun _ => rfl) (fun _ => ⟨rfl, rfl⟩)

theorem Frame.advance_setMode (s : State) (m : Mode) : Frame [.mode] s (s.advance.setMode m) :=
  Frame.intro (fun _ => rfl) (fun _ => rfl) (fun _ => rfl) (fun _ => rfl) (fun _ => rfl) (fun _ => rfl)
    (fun _ => rfl) (fun _ => rfl) (absurd List.mem_cons_self) (fun _ => rfl) (fun _ => ⟨rfl, rfl⟩)

theorem Frame.advance_report (s : State) (w : Word) : Frame [.log] s (s.advance.report .unimplemented w s.pc) :=
  Frame.intro (fun _ => rfl) (fun _ => rfl) (fun _ => rfl) (fun _ => rfl) (fun _ => rfl) (fun _ => rfl)
    (fun _ => rfl) (fun _ => rfl) (fun _ => rfl) (absurd List.mem_cons_self) (fun _ => ⟨rfl, rfl⟩)

theorem Frame.setStack (s : State) (l : List Word) : Frame [.stack] s { s with stack := l } :=
  Frame.intro (fun _ => rfl) (fun _ => rfl) (fun _ => rfl) (absurd List.mem_cons_self) (fun _ => rfl) (fun _ => rfl)
    (fun _ => rfl) (fun _ => rfl) (fun _ => rfl) (fun _ => rfl) (fun _ => ⟨rfl, rfl⟩)

theorem Frame.setStack_setPc (s : State) (l : List Word) (a : Word) :
    Frame [.stack] s (State.setPc a { s with stack := l }) :=
  (Frame.setStack s l).trans ((Frame.setPc { s with stack := l } a).weaken nofun)

theorem Frame.setMem (s : State) (m : Memory) : Frame [.mem] s { s with mem := m } :=
  Frame.intro (fun _ => rfl) (absurd List.mem_cons_self) (fun _ => rfl) (fun _ => rfl) (fun _ => rfl) (fun _ => rfl)
    (fun _ => rfl) (fun _ => rfl) (fun _ => rfl) (fun _ => rfl) (fun _ => ⟨rfl, rfl⟩)

theorem Frame.advance_setMem (s : State) (m : Memory) : Frame [.mem] s { s.advance with mem := m } :=
  ((Frame.setPc s (s.pc + 2)).weaken nofun).trans (Frame.setMem s.advance m)

theorem Frame.advance_writeResultFlag (s : State) (x : Nibble) (r : Byte) (g : Bool) :
    Frame [.regs] s (writeResultFlag .flagLast x r g s.advance) :=
  Frame.intro (absurd List.mem_cons_self) (fun _ => rfl) (fun _ => rfl) (fun _ => rfl) (fun _ => rfl) (fun _ => rfl)
    (fun _ => rfl) (fun _ => rfl) (fun _ => rfl) (fun _ => rfl) (fun _ => ⟨rfl, rfl⟩)

theorem Frame.advance_loadRegs (s : State) (n : Nat) (bs : List Byte) : Frame [.regs] s (s.advance.loadRegs n bs) :=
  Frame.intro (absurd List.mem_cons_self) (fun _ => by simp) (fun _ => by simp) (fun _ => by simp) (fun _ => by simp)
    (fun _ => by simp) (fun _ => by simp) (fun _ => by simp) (fun _ => by simp) (fun _ => by simp) (fun _ => by simp)

theorem Frame.advance_draw (s : State) (p : Config.DrawEdgePolicy) (x y : Nibble) (rows : List Byte) :
    Frame [.regs, .display] s (s.advance.draw p x y rows) :=
  Frame.intro (absurd List.mem_cons_self) (fun _ => rfl) (fun _ => rfl) (fun _ => rfl) (fun _ => rfl) (fun _ => rfl)
    (absurd (by decide)) (fun _ => rfl) (fun _ => rfl) (fun _ => rfl) (fun _ => ⟨rfl, rfl⟩)

/-! ## Everything an instruction can end in -/

/-- Every instruction ends in a next state: inside its frame, or the fault of the state before (R250, R252). -/
theorem exec_cases (i : Instr) (s : State) :
    (∃ t, exec i s = .next t ∧ Frame (mayWrite i) s t) ∨ ∃ f, exec i s = .next (s.raiseFault f) := by
  cases i with
  | cls x => exact .inl ⟨_, exec_cls_eq x s, Frame.advance_setFb s _⟩
  | ret x =>
    rcases exec_ret_cases x s with ⟨-, e⟩ | ⟨v, rest, -, e⟩
    · exact .inr ⟨_, e⟩
    · exact .inl ⟨_, e, Frame.setStack_setPc s rest v⟩
  | call nnn =>
    rw [exec_call_eq]
    split
    · exact .inl ⟨_, rfl, Frame.setStack_setPc s _ _⟩
    · exact .inr ⟨_, rfl⟩
  | jp | jpV0 => exact .inl ⟨_, rfl, Frame.setPc s _⟩
  | seImm | sneImm | seReg | sneReg => exact .inl ⟨_, rfl, Frame.skipIf s _⟩
  | skp x =>
    rcases exec_skp_cases x s with ⟨k, -, e⟩ | ⟨-, e⟩
    · exact .inl ⟨_, e, Frame.skipIf s _⟩
    · exact .inr ⟨_, e⟩
  | sknp x =>
    rcases exec_sknp_cases x s with ⟨k, -, e⟩ | ⟨-, e⟩
    · exact .inl ⟨_, e, Frame.skipIf s _⟩
    · exact .inr ⟨_, e⟩
  | ldImm x | addImm x | rnd x | ldReg x | orReg x | andReg x | xorReg x | ldVxDt x =>
    exact .inl ⟨_, rfl, Frame.advance_setReg s x _⟩
  | addReg x | subReg x | subnReg x | shr x | shl x => exact .inl ⟨_, rfl, Frame.advance_writeResultFlag s x _ _⟩
  | ldI | addI | ldF => exact .inl ⟨_, rfl, Frame.advance_setI s _⟩
  | ldDtVx => exact .inl ⟨_, rfl, Frame.advance_setDt s _⟩
  | ldStVx => exact .inl ⟨_, rfl, Frame.advance_setSt s _⟩
  | ldVxK => exact .inl ⟨_, rfl, Frame.advance_setMode s _⟩
  | sys | unimpl5 | unimpl8 | unimpl9 | unimplE | unimplF => exact .inl ⟨_, rfl, Frame.advance_report s _⟩
  | ldB x =>
    rw [exec_ldB_eq]
    split
    · exact .inl ⟨_, rfl, Frame.advance_setMem s _⟩
    · exact .inr ⟨_, rfl⟩
  | ldMemVx x =>
    rw [exec_ldMemVx_eq]
    split
    · exact .inl ⟨_, rfl, Frame.advance_setMem s _⟩
    · exact .inr ⟨_, rfl⟩
  | ldVxMem x =>
    rw [exec_ldVxMem_eq]
    split
    · exact .inl ⟨_, rfl, Frame.advance_loadRegs s _ _⟩
    · exact .inr ⟨_, rfl⟩
  | drw x y n =>
    rw [exec_drw_eq]
    split
    · exact .inl ⟨_, rfl, Frame.advance_draw s _ _ _ _⟩
    · exact .inr ⟨_, rfl⟩

/-- The arm of a checked instruction that faults does not end in a state that is not faulted. -/
theorem not_next_raiseFault {s t : State} {f : Fault}
    (h : (.next (s.raiseFault f) : Host.Outcome State Fault Refusal) = .next t) (hf : t.faulted = false) : False := by
  cases h
  cases hf

/-- A conditional outcome that is not faulted took the arm without the fault. -/
theorem eq_of_next_ite {c : Prop} [Decidable c] {s t u : State} {f : Fault}
    (h : (.next (if c then u else s.raiseFault f) : Host.Outcome State Fault Refusal) = .next t) (hf : t.faulted = false) :
    c ∧ t = u := by
  by_cases hc : c
  · rw [if_pos hc] at h
    cases h
    exact ⟨hc, rfl⟩
  · rw [if_neg hc] at h
    exact (not_next_raiseFault h hf).elim

section
variable {s t : State} (hf : t.faulted = false)
include hf

theorem exec_ret_next {x : Nibble} (h : exec (.ret x) s = .next t) :
    ∃ v rest, s.stack = v :: rest ∧ t = State.setPc v { s with stack := rest } := by
  rcases exec_ret_cases x s with ⟨-, e⟩ | ⟨v, rest, hstack, e⟩
  · exact (not_next_raiseFault (e.symm.trans h) hf).elim
  · rw [e] at h
    cases h
    exact ⟨v, rest, hstack, rfl⟩

theorem exec_call_next {nnn : Addr12} (h : exec (.call nnn) s = .next t) :
    s.sp < 16 ∧ t = State.setPc (zextAddr nnn) { s with stack := (s.pc + 2) :: s.stack } :=
  eq_of_next_ite ((exec_call_eq nnn s).symm.trans h) hf

theorem exec_skp_next {x : Nibble} (h : exec (.skp x) s = .next t) :
    ∃ k : Nibble, k.toNat = (s.reg x).toNat ∧ t = s.skipIf (s.key k) := by
  rcases exec_skp_cases x s with ⟨k, hk, e⟩ | ⟨-, e⟩
  · rw [e] at h
    cases h
    exact ⟨k, hk, rfl⟩
  · exact (not_next_raiseFault (e.symm.trans h) hf).elim

theorem exec_sknp_next {x : Nibble} (h : exec (.sknp x) s = .next t) :
    ∃ k : Nibble, k.toNat = (s.reg x).toNat ∧ t = s.skipIf (!s.key k) := by
  rcases exec_sknp_cases x s with ⟨k, hk, e⟩ | ⟨-, e⟩
  · rw [e] at h
    cases h
    exact ⟨k, hk, rfl⟩
  · exact (not_next_raiseFault (e.symm.trans h) hf).elim

theorem exec_ldB_next {x : Nibble} (h : exec (.ldB x) s = .next t) :
    s.iBase + 3 ≤ 4096 ∧ t = { s.advance with mem := s.mem.writeBytes s.iBase (bcdDigits (s.reg x)) } :=
  eq_of_next_ite ((exec_ldB_eq x s).symm.trans h) hf

theorem exec_ldMemVx_next {x : Nibble} (h : exec (.ldMemVx x) s = .next t) :
    s.iBase + (x.toNat + 1) ≤ 4096 ∧ t = { s.advance with mem := s.mem.writeBytes s.iBase (s.regsTo x) } :=
  eq_of_next_ite ((exec_ldMemVx_eq x s).symm.trans h) hf

theorem exec_ldVxMem_next {x : Nibble} (h : exec (.ldVxMem x) s = .next t) : s.iBase + (x.toNat + 1) ≤ 4096 ∧
    t = s.advance.loadRegs 0 ((List.range (x.toNat + 1)).map fun k => s.mem.read (s.iBase + k)) :=
  eq_of_next_ite ((exec_ldVxMem_eq x s).symm.trans h) hf

theorem exec_drw_next {x y n : Nibble} (h : exec (.drw x y n) s = .next t) : s.iBase + n.toNat ≤ 4096 ∧
    t = s.advance.draw .wrap x y ((List.range n.toNat).map fun k => s.mem.read (s.iBase + k)) :=
  eq_of_next_ite ((exec_drw_eq x y n s).symm.trans h) hf

end

/-- The frame of an instruction that does not fault. -/
theorem exec_frame {i : Instr} {s t : State} (h : exec i s = .next t) (hf : t.faulted = false) :
    Frame (mayWrite i) s t := by
  rcases exec_cases i s with ⟨u, e, hu⟩ | ⟨f, e⟩
  · rw [e] at h
    cases h
    exact hu
  · exact (not_next_raiseFault (e.symm.trans h) hf).elim

theorem State.faulted_eq_false_of_not_halted {s : State} (h : ∀ r, s.mode ≠ .halted r) : s.faulted = false := by
  unfold State.faulted
  split <;> simp_all

/-! ## Which instructions may write a part -/

theorem log_not_mem_mayWrite {i : Instr} (h : reported i = false) : .log ∉ mayWrite i := by
  cases i <;> simp_all [mayWrite, reported]

theorem keys_not_mem_mayWrite (i : Instr) : .keys ∉ mayWrite i := by
  cases i <;> simp [mayWrite]

theorem display_not_mem_mayWrite {i : Instr} (hcls : ∀ x, i ≠ .cls x) (hdrw : ∀ x y n, i ≠ .drw x y n) :
    .display ∉ mayWrite i := by
  cases i <;> simp_all [mayWrite]

/-! ## The statements that read the frame alone -/

/-- Settles O56: a state that does not end the run is not faulted, and the frame is `exec_frame`'s. -/
theorem instructionsWriteOnlyTheirParts : Obligations.InstructionsWriteOnlyTheirParts := by
  intro i s t h hr
  exact exec_frame h (State.faulted_eq_false_of_not_halted hr)

/-- Settles O55: each reserved word is the same report. -/
theorem unimplementedWordsAreReported : Obligations.UnimplementedWordsAreReported := by
  intro i s h
  exact ⟨_, exec_reported_eq s h, rfl, rfl, Frame.advance_report s _⟩

end Sys2Proof.Machine
end

section
/-! What each instruction leaves in the program counter and the registers (10_state.md R31, R33, R37). -/

namespace Sys2Proof.Machine

/-! ## Flags and registers of the flag writers (R33) -/

theorem flagByte_zero_or_one (g : Bool) : flagByte g = 0 ∨ flagByte g = 1 := by
  cases g with
  | false => exact .inl rfl
  | true => exact .inr rfl

theorem reg_vf_writeResultFlag (x : Nibble) (r : Byte) (g : Bool) (s : State) :
    (writeResultFlag .flagLast x r g s).reg vf = flagByte g := by
  rw [reg_writeResultFlag, if_pos rfl]

theorem reg_vf_draw (p : Config.DrawEdgePolicy) (x y : Nibble) (rows : List Byte) (s : State) :
    (s.draw p x y rows).reg vf = flagByte (blit p (s.reg x).toNat (s.reg y).toNat rows (s.fb, false)).2 := by
  rw [State.reg_draw, if_pos rfl]

theorem reg_writeResultFlag_ne {x j : Nibble} (r : Byte) (g : Bool) (s : State) (hx : j ≠ x) (hvf : j ≠ vf) :
    (writeResultFlag .flagLast x r g s).reg j = s.reg j := by
  rw [reg_writeResultFlag, if_neg hvf, if_neg hx]

theorem reg_draw_ne (p : Config.DrawEdgePolicy) (x y : Nibble) {j : Nibble} (rows : List Byte) (s : State) (h : j ≠ vf) :
    (s.draw p x y rows).reg j = s.reg j := by
  rw [State.reg_draw, if_neg h]

/-- A load of a block from `V[0]` up leaves the registers past it alone. -/
theorem State.reg_loadRegs_of_ge (bs : List Byte) (s : State) (j : Nibble) (hb : bs.length ≤ 16) (h : bs.length ≤ j.toNat) :
    (s.loadRegs 0 bs).reg j = s.reg j := by
  rw [State.reg_loadRegs bs 0 s j (by omega), dif_neg (by omega)]

/-- Settles O32: VF is written last, with a flag as a byte. -/
theorem flagsAreZeroOrOne : Obligations.FlagsAreZeroOrOne := by
  intro i s t hw h hr
  have hf := State.faulted_eq_false_of_not_halted hr
  cases i with
  | addReg | subReg | shr | subnReg | shl =>
    cases h
    rw [reg_vf_writeResultFlag]
    exact flagByte_zero_or_one _
  | drw =>
    obtain ⟨-, rfl⟩ := exec_drw_next hf h
    rw [reg_vf_draw]
    exact flagByte_zero_or_one _
  | _ => cases hw

/-- Settles O33: outside the register writers the registers are in the frame; each writer writes its destinations, and VF. -/
theorem registersAreWrittenOnlyByTheirWriters : Obligations.RegistersAreWrittenOnlyByTheirWriters := by
  intro i s t j h hf hdest hflag
  have hframe := exec_frame h hf
  cases i with
  | ldImm x | addImm x | rnd x | ldReg x | orReg x | andReg x | xorReg x | ldVxDt x =>
    cases h
    exact State.reg_setReg_ne s.advance x j _ (beq_eq_false_iff_ne.1 hdest)
  | addReg x | subReg x | subnReg x | shr x | shl x =>
    cases h
    exact reg_writeResultFlag_ne _ _ s.advance (beq_eq_false_iff_ne.1 hdest) (hflag.resolve_left nofun)
  | drw =>
    obtain ⟨-, rfl⟩ := exec_drw_next hf h
    exact reg_draw_ne _ _ _ _ s.advance (hflag.resolve_left nofun)
  | ldVxMem x =>
    obtain ⟨-, rfl⟩ := exec_ldVxMem_next hf h
    have hx := x.isLt
    have hj : x.toNat < j.toNat := by simpa [namesDest] using hdest
    exact State.reg_loadRegs_of_ge _ s.advance j (by simpa using by omega) (by simpa using by omega)
  | _ => exact hframe .regs (by simp [mayWrite]) j

/-! ## The program counter -/

theorem toNat_jumpTarget (nnn : Addr12) (b : Byte) : (zextAddr nnn + zextByte b).toNat = nnn.toNat + b.toNat := by
  have := nnn.isLt
  have := b.isLt
  rw [BitVec.toNat_add, toNat_zextAddr, toNat_zextByte]
  omega

/-- The top entry of a stack is `S[SP - 1]`. -/
theorem State.entry_top {s : State} {v : Word} {rest : List Word} (h : s.stack = v :: rest) :
    s.entry (s.sp - 1) = some v := by
  simp [State.entry, State.sp, h]

/-- A key code is one key. -/
theorem key_eq_of_toNat_eq {k k' : Nibble} {b : Byte} (h : k.toNat = b.toNat) (h' : k'.toNat = b.toNat) : k = k' :=
  BitVec.eq_of_toNat_eq (h.trans h'.symm)

/-- Settles O24: the writers of the program counter one by one; every other instruction advances. -/
theorem programCounterOfEveryInstruction : Obligations.ProgramCounterOfEveryInstruction := by
  intro i s t h hr
  have hf := State.faulted_eq_false_of_not_halted hr
  cases i with
  | ret =>
    obtain ⟨v, rest, hstack, rfl⟩ := exec_ret_next hf h
    exact State.entry_top hstack
  | jp nnn =>
    cases h
    exact toNat_zextAddr nnn
  | call nnn =>
    obtain ⟨-, rfl⟩ := exec_call_next hf h
    exact toNat_zextAddr nnn
  | jpV0 nnn =>
    cases h
    exact toNat_jumpTarget nnn _
  | seImm | seReg | sneImm | sneReg =>
    cases h
    simp [bne]
  | skp =>
    obtain ⟨k, hk, rfl⟩ := exec_skp_next hf h
    intro k' hk'
    rw [key_eq_of_toNat_eq hk' hk, State.skipIf_pc]
  | sknp =>
    obtain ⟨k, hk, rfl⟩ := exec_sknp_next hf h
    intro k' hk'
    rw [key_eq_of_toNat_eq hk' hk, State.skipIf_pc]
    cases s.key k <;> rfl
  | ldVxK =>
    cases h
    exact ⟨rfl, rfl⟩
  | ldB =>
    obtain ⟨-, rfl⟩ := exec_ldB_next hf h
    rfl
  | ldMemVx =>
    obtain ⟨-, rfl⟩ := exec_ldMemVx_next hf h
    rfl
  | ldVxMem =>
    obtain ⟨-, rfl⟩ := exec_ldVxMem_next hf h
    exact State.loadRegs_pc 0 _ s.advance
  | drw =>
    obtain ⟨-, rfl⟩ := exec_drw_next hf h
    rfl
  | _ =>
    cases h
    rfl

end Sys2Proof.Machine
end

section
/-! The invariant of a run and the other statements about every instruction and every cycle (10_state.md R35 to R48). Each is
shown of an instruction first, then of the phases around it. -/

namespace Sys2Proof.Machine

/-! ## What an instruction keeps of the invariant -/

theorem exec_keeps_memWf {i : Instr} {s t : State} (h : exec i s = .next t) (hf : t.faulted = false) (hwf : s.mem.wf) :
    t.mem.wf := by
  cases i with
  | ldB =>
    obtain ⟨hin, rfl⟩ := exec_ldB_next hf h
    exact Memory.wf_writeBytes hin hwf
  | ldMemVx =>
    obtain ⟨hin, rfl⟩ := exec_ldMemVx_next hf h
    exact Memory.wf_writeBytes (by rw [State.length_regsTo]; exact hin) hwf
  | ret =>
    obtain ⟨_, _, -, rfl⟩ := exec_ret_next hf h
    exact hwf
  | call =>
    obtain ⟨-, rfl⟩ := exec_call_next hf h
    exact hwf
  | skp =>
    obtain ⟨k, -, rfl⟩ := exec_skp_next hf h
    rwa [State.skipIf_mem]
  | sknp =>
    obtain ⟨k, -, rfl⟩ := exec_sknp_next hf h
    rwa [State.skipIf_mem]
  | seImm | sneImm | seReg | sneReg =>
    cases h
    rwa [State.skipIf_mem]
  | ldVxMem =>
    obtain ⟨-, rfl⟩ := exec_ldVxMem_next hf h
    rwa [State.loadRegs_mem]
  | drw =>
    obtain ⟨-, rfl⟩ := exec_drw_next hf h
    exact hwf
  | _ =>
    cases h
    exact hwf

theorem toNat_ofNat_lt_memSize {n : Nat} (h : n < 4096) : (BitVec.ofNat 16 n).toNat < 4096 :=
  Nat.lt_of_le_of_lt (by rw [BitVec.toNat_ofNat]; exact Nat.mod_le _ _) h

theorem exec_keeps_iBound {i : Instr} {s t : State} (h : exec i s = .next t) (hf : t.faulted = false)
    (hi : s.i.toNat < 4096) : t.i.toNat < 4096 := by
  have hframe := exec_frame h hf
  cases i with
  | ldI nnn =>
    cases h
    rw [State.setI_i, toNat_zextAddr]
    exact nnn.isLt
  | addI x =>
    cases h
    exact toNat_ofNat_lt_memSize (Nat.mod_lt _ (by decide))
  | ldF x =>
    cases h
    have := (s.reg x).isLt
    exact toNat_ofNat_lt_memSize (by omega)
  | _ => rwa [hframe .index (by simp [mayWrite])]

theorem toNat_add_two_le {a : Word} (h : a.toNat ≤ 0xFFE) : (a + 2).toNat ≤ 0x1000 := by bv_omega

theorem toNat_add_four_le {a : Word} (h : a.toNat ≤ 0xFFE) : (a + 4).toNat ≤ 0x1002 := by bv_omega

/-- A stack entry is one of the stack's words. -/
theorem State.mem_stack_of_entry {s : State} {n : Nat} {v : Word} (h : s.entry n = some v) : v ∈ s.stack :=
  List.mem_reverse.1 (List.mem_of_getElem? h)

/-- The depth bound and the bound of the entries, together. -/
theorem exec_keeps_stack {i : Instr} {s t : State} (h : exec i s = .next t) (hf : t.faulted = false)
    (hpc : s.pc.toNat ≤ 0xFFE) (hs : s.sp ≤ 16 ∧ ∀ a ∈ s.stack, a.toNat ≤ 0x1000) :
    t.sp ≤ 16 ∧ ∀ a ∈ t.stack, a.toNat ≤ 0x1000 := by
  have hframe := exec_frame h hf
  obtain ⟨hsp, hent⟩ := hs
  cases i with
  | ret =>
    obtain ⟨v, rest, hstack, rfl⟩ := exec_ret_next hf h
    rw [State.sp, hstack, List.length_cons] at hsp
    rw [hstack] at hent
    exact ⟨by simp only [State.sp, State.setPc_stack]; omega, fun a ha => hent a (List.mem_cons_of_mem v ha)⟩
  | call =>
    obtain ⟨hroom, rfl⟩ := exec_call_next hf h
    exact ⟨hroom, List.forall_mem_cons.2 ⟨toNat_add_two_le hpc, hent⟩⟩
  | _ =>
    have hstack : t.stack = s.stack := hframe .stack (by simp [mayWrite])
    rw [State.sp, hstack]
    exact ⟨hsp, hent⟩

/-- From a fetchable address every instruction leaves `PC` at most 0x10FE (R36, D5). -/
theorem exec_pcBound {i : Instr} {s t : State} (h : exec i s = .next t) (hr : ∀ r, t.mode ≠ .halted r)
    (hpc : s.pc.toNat ≤ 0xFFE) (hent : ∀ a ∈ s.stack, a.toNat ≤ 0x1000) : t.pc.toNat ≤ 0x10FE := by
  have hf := State.faulted_eq_false_of_not_halted hr
  have hnext := programCounterOfEveryInstruction i s t h hr
  have hadvance : (s.pc + 2).toNat ≤ 0x10FE := Nat.le_trans (toNat_add_two_le hpc) (by decide)
  have hskip : ∀ c : Bool, (s.skipIf c).pc.toNat ≤ 0x10FE := by
    intro c
    cases c with
    | true => exact Nat.le_trans (toNat_add_four_le hpc) (by decide)
    | false => exact hadvance
  cases i with
  | ret => exact Nat.le_trans (hent _ (State.mem_stack_of_entry hnext)) (by decide)
  | jp nnn | call nnn =>
    have hnnn : t.pc.toNat = nnn.toNat := hnext
    omega
  | jpV0 nnn =>
    have hsum : t.pc.toNat = nnn.toNat + (s.reg 0).toNat := hnext
    omega
  | seImm | sneImm | seReg | sneReg =>
    cases h
    exact hskip _
  | skp =>
    obtain ⟨k, -, rfl⟩ := exec_skp_next hf h
    exact hskip _
  | sknp =>
    obtain ⟨k, -, rfl⟩ := exec_sknp_next hf h
    exact hskip _
  | ldVxK =>
    obtain ⟨hadv, -⟩ := hnext
    rwa [hadv]
  | _ =>
    have hadv : t.pc = s.pc + 2 := hnext
    rwa [hadv]

/-- Where the CORE runs, an instruction ends the run by a fault alone: none of them quits. -/
theorem exec_not_halted {i : Instr} {s t : State} (h : exec i s = .next t) (hf : t.faulted = false)
    (hm : s.mode = .running) : ∀ r, t.mode ≠ .halted r := by
  intro r hr
  have hframe := exec_frame h hf
  cases i with
  | ldVxK =>
    cases h
    cases hr
  | _ =>
    have hmode : t.mode = s.mode := hframe .mode (by simp [mayWrite])
    rw [hmode, hm] at hr
    cases hr

theorem exec_keeps_sound {i : Instr} {s t : State} (h : exec i s = .next t) (hf : t.faulted = false)
    (hm : s.mode = .running) (hpc : s.pc.toNat ≤ 0xFFE) (hs : s.Sound) : t.Sound := by
  obtain ⟨hsp, hent⟩ := exec_keeps_stack h hf hpc ⟨hs.spBound, hs.entries⟩
  exact
    { memWf := exec_keeps_memWf h hf hs.memWf
      iBound := exec_keeps_iBound h hf hs.iBound
      pcBound := exec_pcBound h (exec_not_halted h hf hm) hpc hs.entries
      spBound := hsp
      entries := hent }

/-! ## What the phases keep of it -/

/-- The invariant reads memory, `I`, `PC` and the stack. -/
theorem State.Sound.congr {s t : State} (hs : s.Sound) (hmem : t.mem = s.mem) (hi : t.i = s.i) (hpc : t.pc = s.pc)
    (hstack : t.stack = s.stack) : t.Sound where
  memWf := hmem ▸ hs.memWf
  iBound := hi ▸ hs.iBound
  pcBound := hpc ▸ hs.pcBound
  spBound := by rw [State.sp, hstack]; exact hs.spBound
  entries := hstack ▸ hs.entries

theorem State.Sound.applyEvents {s : State} (hs : s.Sound) (es : List Event) : (s.applyEvents es).Sound := by
  obtain ⟨hmem, hi, hpc, hstack, -⟩ := State.applyEvents_keeps es s
  exact hs.congr hmem hi hpc hstack

/-- The timer phase and the end of a cycle write timers and the model's own fields alone (R272). -/
theorem State.endPhases_keep (due : Bool) (s : State) :
    (s.timerPhase due).endCycle.mem = s.mem ∧ (s.timerPhase due).endCycle.v = s.v ∧
    (s.timerPhase due).endCycle.i = s.i ∧ (s.timerPhase due).endCycle.pc = s.pc ∧
    (s.timerPhase due).endCycle.stack = s.stack ∧ (s.timerPhase due).endCycle.fb = s.fb ∧
    (s.timerPhase due).endCycle.k = s.k ∧ (s.timerPhase due).endCycle.mode = s.mode ∧
    (s.timerPhase due).endCycle.diag = s.diag := by
  rcases State.timerPhase_cases due s with ⟨e, -⟩ | ⟨e, -⟩ <;> rw [e] <;> simp

theorem State.Sound.endPhases {s : State} (hs : s.Sound) (due : Bool) : (s.timerPhase due).endCycle.Sound := by
  obtain ⟨hmem, -, hi, hpc, hstack, -⟩ := State.endPhases_keep due s
  exact hs.congr hmem hi hpc hstack

@[simp] theorem State.faulted_endPhases (due : Bool) (s : State) : (s.timerPhase due).endCycle.faulted = s.faulted := by
  obtain ⟨-, -, -, -, -, -, -, hmode, -⟩ := State.endPhases_keep due s
  exact State.faulted_congr hmode

/-! ## The execute phase and the cycle -/

/-- What the execute phase can end in: what the instruction at `PC` ends in, a fault, or the state itself (R100, R252). -/
theorem executePhase_next {s t : State} (h : executePhase s = .next t) :
    (s.mode = .running ∧ s.pc.toNat ≤ 0xFFE ∧ ∃ i, exec i s = .next t) ∨ (∃ f, t = s.raiseFault f) ∨ t = s := by
  rcases executePhase_cases s with ⟨hm, hpc, e⟩ | ⟨-, -, e⟩ | ⟨-, e⟩
  · exact .inl ⟨hm, hpc, _, e.symm.trans h⟩
  · rw [e] at h
    cases h
    exact .inr (.inl ⟨_, rfl⟩)
  · rw [e] at h
    cases h
    exact .inr (.inr rfl)

theorem exec_ends_next (i : Instr) (s : State) : ∃ t, exec i s = .next t := by
  rcases exec_cases i s with ⟨t, e, -⟩ | ⟨f, e⟩
  · exact ⟨t, e⟩
  · exact ⟨_, e⟩

theorem executePhase_ends_next (s : State) : ∃ t, executePhase s = .next t := by
  rcases executePhase_cases s with ⟨-, -, e⟩ | ⟨-, -, e⟩ | ⟨-, e⟩
  · rw [e]
    exact exec_ends_next _ s
  · exact ⟨_, e⟩
  · exact ⟨_, e⟩

/-- What a cycle can do: nothing when halted, else the execute phase after the events, and the end phases (R258, R270). -/
theorem step_cases (s : State) :
    ((∃ r, s.mode = .halted r) ∧ step s = .next s) ∨
    ((∀ r, s.mode ≠ .halted r) ∧ ∃ u, executePhase (s.applyEvents s.currentInput.events) = .next u ∧
      step s = .next (u.timerPhase s.currentInput.timerDue).endCycle) := by
  by_cases hr : ∃ r, s.mode = .halted r
  · obtain ⟨r, hr⟩ := hr
    exact .inl ⟨⟨r, hr⟩, step_halted hr⟩
  · have hr : ∀ r, s.mode ≠ .halted r := fun r e => hr ⟨r, e⟩
    obtain ⟨u, hu⟩ := executePhase_ends_next (s.applyEvents s.currentInput.events)
    exact .inr ⟨hr, u, hu, by rw [step_eq hr, hu, finishCycle_next]⟩

/-! ## The statements -/

/-- Settles O9: an instruction ends in its effect or a fault, both next states; a cycle wraps one of them. -/
theorem everyCycleEndsInANextState : Obligations.EveryCycleEndsInANextState := by
  refine ⟨exec_ends_next, fun s => ?_⟩
  rcases step_cases s with ⟨-, e⟩ | ⟨-, u, -, e⟩
  · exact ⟨_, e⟩
  · exact ⟨_, e⟩

/-- Settles O12: a state that no fault has ended is sound after the events, after the instruction and after the end phases. -/
theorem stepKeepsTheInvariant : Obligations.StepKeepsTheInvariant := by
  intro s t hinv h hf
  rcases step_cases s with ⟨-, e⟩ | ⟨hr, u, hu, e⟩
  · rw [e] at h
    cases h
    exact hinv hf
  · rw [e] at h
    cases h
    rw [State.faulted_endPhases] at hf
    have hs := (hinv (State.faulted_eq_false_of_not_halted hr)).applyEvents s.currentInput.events
    have hsound : u.Sound := by
      rcases executePhase_next hu with ⟨hm, hpc, i, hexec⟩ | ⟨f, rfl⟩ | rfl
      · exact exec_keeps_sound hexec hf hm hpc hs
      · cases hf
      · exact hs
    exact hsound.endPhases _

/-- Settles O11: the reset state lists no memory, and the ROM load changes memory alone. -/
theorem invariantHoldsAtStart : Obligations.InvariantHoldsAtStart := by
  have hreset : State.reset.Sound :=
    { memWf := Memory.wf_nil, iBound := by decide, pcBound := by decide, spBound := Nat.zero_le _, entries := nofun }
  refine ⟨fun _ => hreset, fun rom t h _ => ?_⟩
  have hwf := wf_loadRom hreset.memWf h
  rw [loadRom_eq] at h
  split at h
  · cases h
    exact { hreset with memWf := hwf }
  · cases h

/-- Settles O44: the display is in the frame of every other instruction, and the other phases keep the field. -/
theorem onlyDrawAndClearWriteTheDisplay : Obligations.OnlyDrawAndClearWriteTheDisplay := by
  constructor
  · intro i s t hcls hdrw h hf
    exact exec_frame h hf .display (display_not_mem_mayWrite hcls hdrw)
  · intro s es due c r
    obtain ⟨-, -, -, -, -, hend, -⟩ := State.endPhases_keep due (s.applyEvents es)
    obtain ⟨-, -, -, -, -, -, hinput, -⟩ := State.applyEvents_keeps es s
    rw [hend, hinput]

/-- A cycle leaves every latch as its input phase did (R271). -/
theorem step_key {s t : State} (hr : ∀ r, s.mode ≠ .halted r) (h : step s = .next t) (hf : t.faulted = false)
    (k : Nibble) : t.key k = (s.applyEvents s.currentInput.events).key k := by
  rcases step_cases s with ⟨⟨r, hm⟩, -⟩ | ⟨-, u, hu, e⟩
  · exact absurd hm (hr r)
  · rw [e] at h
    cases h
    rw [State.faulted_endPhases] at hf
    obtain ⟨-, -, -, -, -, -, hkeys, -⟩ := State.endPhases_keep s.currentInput.timerDue u
    rw [State.key_congr hkeys]
    rcases executePhase_next hu with ⟨-, -, i, hexec⟩ | ⟨f, rfl⟩ | rfl
    · exact exec_frame hexec hf .keys (keys_not_mem_mayWrite i) k
    · cases hf
    · rfl

/-- Settles O57: the latches are in every instruction's frame, and the phases after the input phase keep them. -/
theorem onlyTheHostWritesTheKeypad : Obligations.OnlyTheHostWritesTheKeypad := by
  refine ⟨?instruction, ?cycle, ?noEvents⟩
  case instruction => exact fun i s t k h hf => exec_frame h hf .keys (keys_not_mem_mayWrite i) k
  case cycle => exact fun s t k hr h hf => step_key hr h hf k
  case noEvents =>
    intro s t k hev h hf
    by_cases hr : ∃ r, s.mode = .halted r
    · obtain ⟨r, hr⟩ := hr
      rw [step_halted hr] at h
      cases h
      rfl
    · rw [step_key (fun r e => hr ⟨r, e⟩) h hf k, hev, State.applyEvents_nil]

/-- An instruction appends the report of a reserved word, or nothing. -/
theorem exec_diag {i : Instr} {s t : State} (h : exec i s = .next t) :
    ∃ es : List DiagEntry, t.diag = s.diag ++ es ∧ es.length ≤ 1 := by
  by_cases hrep : reported i = true
  · rw [exec_reported_eq s hrep] at h
    cases h
    exact ⟨_, rfl, Nat.le_refl 1⟩
  · refine ⟨[], ?_, Nat.zero_le 1⟩
    rw [List.append_nil]
    rcases exec_cases i s with ⟨u, e, hframe⟩ | ⟨f, e⟩
    · rw [e] at h
      cases h
      exact hframe .log (log_not_mem_mayWrite (Bool.eq_false_iff.2 hrep))
    · rw [e] at h
      cases h
      rfl

/-- Settles O59: the instruction appends at most one entry, and no other phase writes the log. -/
theorem diagnosticLogOnlyGrows : Obligations.DiagnosticLogOnlyGrows := by
  intro s t h
  rcases step_cases s with ⟨-, e⟩ | ⟨-, u, hu, e⟩
  · rw [e] at h
    cases h
    exact ⟨[], (List.append_nil _).symm, Nat.zero_le 1⟩
  · rw [e] at h
    cases h
    obtain ⟨-, -, -, -, -, -, -, -, hend⟩ := State.endPhases_keep s.currentInput.timerDue u
    obtain ⟨-, -, -, -, -, -, -, hinput, -⟩ := State.applyEvents_keeps s.currentInput.events s
    rw [hend, ← hinput]
    rcases executePhase_next hu with ⟨-, -, i, hexec⟩ | ⟨f, rfl⟩ | rfl
    · exact exec_diag hexec
    · exact ⟨[], (List.append_nil _).symm, Nat.zero_le 1⟩
    · exact ⟨[], (List.append_nil _).symm, Nat.zero_le 1⟩

end Sys2Proof.Machine
end

section
/-! No instruction reads the sound timer (10_state.md R40, R49): every instruction but `LD ST, Vx` commutes with a write of
it. -/

namespace Sys2Proof.Machine

/-! ## The shared operations under another sound timer -/

theorem State.skipIf_setSt (s : State) (c : Bool) (b : Byte) : (s.setSt b).skipIf c = (s.skipIf c).setSt b := by
  cases c <;> rfl

theorem State.loadRegs_setSt (bs : List Byte) (n : Nat) (s : State) (b : Byte) :
    (s.setSt b).loadRegs n bs = (s.loadRegs n bs).setSt b := by
  induction bs generalizing n s with
  | nil => rfl
  | cons c bs ih => exact ih (n + 1) (s.setReg (BitVec.ofNat 4 n) c)

/-- A checked instruction's two arms commute with a write of the sound timer when its effect does. -/
theorem setSt_ite {c : Prop} [Decidable c] {s u u' : State} {f : Fault} {b : Byte} (hu : u' = u.setSt b) :
    (if c then u' else (s.setSt b).raiseFault f) = (if c then u else s.raiseFault f).setSt b := by
  split
  · exact hu
  · rfl

/-- Settles O58: each instruction's effect is built of operations that commute with a write of `ST`; `LD ST, Vx` replaces
the timer whatever it was. -/
theorem noInstructionReadsTheSoundTimer : Obligations.NoInstructionReadsTheSoundTimer := by
  intro i s t b h hf
  constructor
  · intro hst
    cases i with
    | ldStVx x => exact absurd rfl (hst x)
    | ret x =>
      obtain ⟨v, rest, hstack, rfl⟩ := exec_ret_next hf h
      exact exec_ret_of_stack x hstack
    | skp x =>
      obtain ⟨k, hk, rfl⟩ := exec_skp_next hf h
      exact (exec_skp_of_key (s := s.setSt b) hk).trans (congrArg Host.Outcome.next (State.skipIf_setSt s _ b))
    | sknp x =>
      obtain ⟨k, hk, rfl⟩ := exec_sknp_next hf h
      exact (exec_sknp_of_key (s := s.setSt b) hk).trans (congrArg Host.Outcome.next (State.skipIf_setSt s _ b))
    | seImm | sneImm | seReg | sneReg =>
      cases h
      exact congrArg Host.Outcome.next (State.skipIf_setSt s _ b)
    | call nnn =>
      rw [exec_call_eq] at h ⊢
      cases h
      exact congrArg Host.Outcome.next (setSt_ite rfl)
    | ldB x =>
      rw [exec_ldB_eq] at h ⊢
      cases h
      exact congrArg Host.Outcome.next (setSt_ite rfl)
    | ldMemVx x =>
      rw [exec_ldMemVx_eq] at h ⊢
      cases h
      exact congrArg Host.Outcome.next (setSt_ite rfl)
    | ldVxMem x =>
      rw [exec_ldVxMem_eq] at h ⊢
      cases h
      exact congrArg Host.Outcome.next (setSt_ite (State.loadRegs_setSt _ 0 s.advance b))
    | drw x y n =>
      rw [exec_drw_eq] at h ⊢
      cases h
      exact congrArg Host.Outcome.next (setSt_ite rfl)
    | _ =>
      cases h
      rfl
  · rintro ⟨x, rfl⟩
    exact h

end Sys2Proof.Machine
end

section
/-! The jump with an offset, the call and the return (40_control_flow.md R130, R132, R137; 10_state.md R39). -/

namespace Sys2Proof.Machine

/-- A stack with `v` on top: one entry more, `v` at the old depth, the entries below unchanged (R39). -/
theorem State.stack_pushed {s t : State} {v : Word} (h : t.stack = v :: s.stack) :
    t.sp = s.sp + 1 ∧ t.entry s.sp = some v ∧ ∀ n, n ≠ s.sp → t.entry n = s.entry n := by
  refine ⟨by rw [State.sp, h]; rfl, ?_, fun n hn => ?_⟩
  · rw [State.entry_push s t v h, if_pos rfl]
  · rw [State.entry_push s t v h, if_neg hn]

/-- Settles O17: the sum of a 12-bit and an 8-bit number fits 16 bits. -/
theorem jumpWithOffsetResult : Obligations.JumpWithOffsetResult := by
  intro nnn s
  exact ⟨_, exec_jpV0_eq nnn s, toNat_jumpTarget nnn _, Frame.setPc s _⟩

/-- Settles O18: the push compares the depth, and stores on top. -/
theorem pushFollowsTheDepth : Obligations.PushFollowsTheDepth := by
  refine ⟨?room, ?full, rfl⟩
  case room =>
    intro depth v s h
    obtain ⟨hsp, htop, hbelow⟩ := State.stack_pushed (s := s) (t := { s with stack := v :: s.stack }) rfl
    exact ⟨_, by rw [State.push_eq, if_pos h], hsp, htop, hbelow, rfl, Frame.setStack s _⟩
  case full =>
    intro depth v s h
    rw [State.push_eq, if_neg (Nat.not_lt.2 h)]

/-- Settles O19: the call pushes `a + 2` and jumps. -/
theorem callResult : Obligations.CallResult := by
  intro nnn s h
  obtain ⟨hsp, htop, hbelow⟩ := State.stack_pushed (s := s)
    (t := State.setPc (zextAddr nnn) { s with stack := (s.pc + 2) :: s.stack }) rfl
  exact ⟨_, exec_call_of_room nnn s h, toNat_zextAddr nnn, hsp, htop, hbelow, Frame.setStack_setPc s _ _⟩

/-- Settles O20: a stack that is not empty has a top entry, which becomes the program counter. -/
theorem returnResult : Obligations.ReturnResult := by
  intro x s h
  obtain ⟨v, rest, hstack⟩ := List.exists_cons_of_length_pos h
  refine ⟨_, exec_ret_of_stack x hstack, State.entry_top hstack, ?depth, ?below, Frame.setStack_setPc s rest v⟩
  case depth =>
    rw [State.sp, State.sp, hstack]
    rfl
  case below => exact fun n hn => State.entry_pop s (State.setPc v { s with stack := rest }) v hstack n hn

/-- Settles O21: the two checks of the stack fail at the empty and at the full stack. -/
theorem stackViolationsHalt : Obligations.StackViolationsHalt := by
  constructor
  · intro x s h
    exact halts_of_raiseFault (exec_ret_of_empty x (List.eq_nil_of_length_eq_zero h))
  · intro nnn s h
    exact halts_of_raiseFault (exec_call_of_full nnn s (Nat.not_lt.2 (Nat.le_of_eq h.symm)))

/-- Settles O22: the return pops the entry the call pushed, so the stack is the one before the call. -/
theorem callThenReturnRestores : Obligations.CallThenReturnRestores := by
  intro nnn x s h
  exact ⟨_, _, exec_call_of_room nnn s h, exec_ret_of_stack x rfl, rfl, Frame.setPc s (s.pc + 2)⟩

end Sys2Proof.Machine
end

section
/-! The flag-writing arithmetic, the shifts and the random byte (41_alu.md R156 to R162). -/

namespace Sys2Proof.Machine

/-! ## What a result with its flag leaves (R33) -/

theorem reg_writeResultFlag_result {x : Nibble} (h : x ≠ vf) (r : Byte) (g : Bool) (s : State) :
    (writeResultFlag .flagLast x r g s).reg x = r := by
  rw [reg_writeResultFlag, if_neg h, if_pos rfl]

theorem toNat_flagByte_decide (p : Prop) [Decidable p] : (flagByte (decide p)).toNat = if p then 1 else 0 := by
  by_cases h : p <;> simp [h]

/-- What an instruction that advances and writes a result with its flag leaves outside `V[x]` and VF. -/
theorem State.advance_writeResultFlag_rest (s : State) (x : Nibble) (r : Byte) (g : Bool) :
    (writeResultFlag .flagLast x r g s.advance).pc = s.pc + 2 ∧
    RegsBut [x, vf] s (writeResultFlag .flagLast x r g s.advance) ∧
    Frame [.regs] s (writeResultFlag .flagLast x r g s.advance) := by
  refine ⟨rfl, fun j hj => ?_, Frame.advance_writeResultFlag s x r g⟩
  rw [List.mem_cons, List.mem_singleton, not_or] at hj
  obtain ⟨hx, hvf⟩ := hj
  exact reg_writeResultFlag_ne r g s.advance hx hvf

/-! ## Results and flags in numbers -/

theorem toNat_carryFlag (a b : Byte) : (flagByte (carryFlag a b)).toNat = if a.toNat + b.toNat > 255 then 1 else 0 :=
  toNat_flagByte_decide _

theorem toNat_noBorrowFlag (a b : Byte) : (flagByte (noBorrowFlag a b)).toNat = if a.toNat ≥ b.toNat then 1 else 0 :=
  toNat_flagByte_decide _

/-- The byte difference is the integer difference modulo 256. -/
theorem toNat_sub_emod (a b : Byte) : ((a - b).toNat : Int) = ((a.toNat : Int) - b.toNat) % 256 := by
  have := a.isLt
  have := b.isLt
  rw [BitVec.toNat_sub]
  omega

theorem toNat_shiftedOutRight (a : Byte) : (flagByte (shiftedOutRight a)).toNat = a.toNat % 2 := by
  have hbit : shiftedOutRight a = decide (a.toNat % 2 = 1) := by simp [shiftedOutRight, BitVec.getLsbD, Nat.testBit_zero]
  rw [hbit, toNat_flagByte_decide]
  split <;> omega

theorem toNat_shiftedOutLeft (a : Byte) : (flagByte (shiftedOutLeft a)).toNat = a.toNat / 128 := by
  have := a.isLt
  have hbit : shiftedOutLeft a = decide (a.toNat / 128 % 2 = 1) := by
    simp only [shiftedOutLeft, BitVec.getLsbD, Nat.testBit_eq_decide_div_mod_eq]
  rw [hbit, toNat_flagByte_decide]
  split <;> omega

theorem toNat_shiftRight_one (a : Byte) : (a >>> 1).toNat = a.toNat / 2 := by
  rw [BitVec.toNat_ushiftRight, Nat.shiftRight_eq_div_pow]

theorem toNat_shiftLeft_one (a : Byte) : (a <<< 1).toNat = a.toNat * 2 % 256 := by
  rw [BitVec.toNat_shiftLeft, Nat.shiftLeft_eq]

/-! ## The statements -/

/-- Settles O28: the result is the byte sum, and VF is written after it. -/
theorem addRegistersResult : Obligations.AddRegistersResult := by
  intro x y s
  refine ⟨_, exec_addReg_eq x y s, fun hx => ?sum, ?carry, s.advance_writeResultFlag_rest x _ _⟩
  case sum => rw [reg_writeResultFlag_result hx, BitVec.toNat_add]
  case carry => rw [reg_vf_writeResultFlag, toNat_carryFlag]

/-- Settles O29: the two differ in which operand is subtracted from which. -/
theorem subtractRegistersResults : Obligations.SubtractRegistersResults := by
  intro x y s
  constructor
  · refine ⟨_, exec_subReg_eq x y s, fun hx => ?_, ?_, s.advance_writeResultFlag_rest x _ _⟩
    · rw [reg_writeResultFlag_result hx, toNat_sub_emod]
    · rw [reg_vf_writeResultFlag, toNat_noBorrowFlag]
  · refine ⟨_, exec_subnReg_eq x y s, fun hx => ?_, ?_, s.advance_writeResultFlag_rest x _ _⟩
    · rw [reg_writeResultFlag_result hx, toNat_sub_emod]
    · rw [reg_vf_writeResultFlag, toNat_noBorrowFlag]

/-- Settles O30: both read `V[x]` alone; the flag is the bit that the shift drops. -/
theorem shiftResults : Obligations.ShiftResults := by
  intro x y s
  constructor
  · refine ⟨_, exec_shr_eq x y s, fun hx => ?_, ?_, s.advance_writeResultFlag_rest x _ _⟩
    · rw [reg_writeResultFlag_result hx, toNat_shiftRight_one]
    · rw [reg_vf_writeResultFlag, toNat_shiftedOutRight]
  · refine ⟨_, exec_shl_eq x y s, fun hx => ?_, ?_, s.advance_writeResultFlag_rest x _ _⟩
    · rw [reg_writeResultFlag_result hx, toNat_shiftLeft_one]
    · rw [reg_vf_writeResultFlag, toNat_shiftedOutLeft]

theorem State.currentInput_of_head? {s : State} {c : CycleInput} (h : s.inputs.head? = some c) : s.currentInput = c := by
  rw [State.currentInput, List.headD_eq_head?_getD, h, Option.getD_some]

/-- Settles O31: the one register written is `V[x]`, with the cycle's byte under the mask; the mask 0xFF keeps every bit. -/
theorem randomAndResult : Obligations.RandomAndResult := by
  constructor
  · intro x nn s
    refine ⟨_, exec_rnd_eq x nn s, fun k => ?_, s.advance_setReg_rest x _⟩
    rw [State.reg_setReg_self, BitVec.getLsbD_and]
  · intro x c s h
    refine ⟨_, exec_rnd_eq x 0xFF s, ?_⟩
    rw [State.reg_setReg_self, State.currentInput_of_head? h]
    exact BitVec.and_allOnes

end Sys2Proof.Machine
end

section
/-! The key skips, the wait for a key and the clear-screen (44_input_timers.md R220 to R222; 43_display.md R200, R203). -/

namespace Sys2Proof.Machine

/-- Settles O45: each skips on the latch of the one key with the register's value. -/
theorem keySkipResults : Obligations.KeySkipResults := by
  intro x k s h
  constructor
  · exact ⟨_, exec_skp_of_key h.symm, fun hk => by rw [hk]; rfl, fun hk => by rw [hk]; rfl, Frame.skipIf s _⟩
  · exact ⟨_, exec_sknp_of_key h.symm, fun hk => by rw [hk]; rfl, fun hk => by rw [hk]; rfl, Frame.skipIf s _⟩

/-- Settles O46: no key has the register's value. -/
theorem keyIndexAboveFifteenHalts : Obligations.KeyIndexAboveFifteenHalts := by
  intro x s h
  exact ⟨halts_of_raiseFault (exec_skp_of_no_key h), halts_of_raiseFault (exec_sknp_of_no_key h)⟩

/-- Settles O47: the wait advances and writes the mode. -/
theorem waitForKeySuspends : Obligations.WaitForKeySuspends := by
  intro x s
  exact ⟨_, exec_ldVxK_eq x s, rfl, rfl, Frame.advance_setMode s _⟩

/-- Settles O40: the framebuffer written is the clear one. -/
theorem clearScreenResult : Obligations.ClearScreenResult := by
  intro x s
  exact ⟨_, exec_cls_eq x s, FrameBuffer.pixel_clear, rfl, Frame.advance_setFb s _⟩

/-- Settles O41: `Wrap` places every pixel modulo the grid, `Clip` those inside the grid where they are. -/
theorem placeFollowsThePolicy : Obligations.PlaceFollowsThePolicy := by
  refine ⟨?wrap, ?inside, ?outside, rfl⟩
  case wrap => exact fun cx cy => ⟨_, rfl, rfl, rfl⟩
  case inside =>
    intro cx cy hx hy
    exact ⟨_, if_pos ⟨hx, hy⟩, Nat.mod_eq_of_lt hx, Nat.mod_eq_of_lt hy⟩
  case outside =>
    intro cx cy h
    refine if_neg fun hin => ?_
    obtain ⟨hx, hy⟩ := hin
    simp only [Config.displayW, Config.displayH] at hx hy
    omega

end Sys2Proof.Machine
end

section
/-! Memory as data: the canonical form, the ROM load and the boot (10_state.md R44, R45; 70_reset_and_hazards.md R292,
R293). -/

namespace Sys2Proof.Machine

/-! ## The canonical form is unique -/

/-- A canonical memory reads its first listed address as no memory does that lists higher addresses alone. -/
theorem Memory.read_head_ne {a : Nat} {v : Byte} {m n : Memory} (hm : Memory.wf ((a, v) :: m)) (hn : ∀ d ∈ n, a < d.1) :
    Memory.read ((a, v) :: m) a ≠ n.read a := by
  obtain ⟨-, hv⟩ := hm.2 (a, v) List.mem_cons_self
  rw [Memory.read_of_lt n a hn, Memory.read, if_pos rfl]
  exact hv

/-- The tail of a canonical memory reads as the whole, but for the first address, which it reads as the background. -/
theorem Memory.read_tail {a : Nat} {v : Byte} {m : Memory} (hm : Memory.wf ((a, v) :: m)) (c : Nat) :
    m.read c = if c = a then Memory.background a else Memory.read ((a, v) :: m) c := by
  by_cases h : c = a
  · rw [if_pos h, h]
    exact Memory.read_of_lt m a (Memory.wf_head hm)
  · rw [if_neg h, Memory.read, if_neg h]

/-- Settles O13: of two canonical memories with different first addresses, the one with the lower first address reads it
as the other does not; with the same first address the bytes there agree, and the tails by induction. -/
theorem sameBytesSameMemory : Obligations.SameBytesSameMemory := by
  intro m
  induction m with
  | nil =>
    intro n _ hn h
    cases n with
    | nil => rfl
    | cons d n => exact absurd (h d.1 (hn.2 d List.mem_cons_self).1).symm (Memory.read_head_ne hn nofun)
  | cons c m ih =>
    intro n hm hn h
    obtain ⟨a, v⟩ := c
    have ha : a < 4096 := (hm.2 (a, v) List.mem_cons_self).1
    cases n with
    | nil => exact absurd (h a ha) (Memory.read_head_ne hm nofun)
    | cons d n =>
      obtain ⟨b, w⟩ := d
      have hb : b < 4096 := (hn.2 (b, w) List.mem_cons_self).1
      rcases Nat.lt_trichotomy a b with hlt | rfl | hgt
      · refine absurd (h a ha) (Memory.read_head_ne hm (List.forall_mem_cons.2 ⟨hlt, fun d hd => ?_⟩))
        exact Nat.lt_trans hlt (Memory.wf_head hn d hd)
      · have hv : v = w := by simpa [Memory.read] using h a ha
        have htails : m = n := ih n (Memory.wf_tail hm) (Memory.wf_tail hn) fun c hc => by
          rw [Memory.read_tail hm, Memory.read_tail hn, h c hc]
        rw [hv, htails]
      · refine absurd (h b hb).symm (Memory.read_head_ne hn (List.forall_mem_cons.2 ⟨hgt, fun d hd => ?_⟩))
        exact Nat.lt_trans hgt (Memory.wf_head hm d hd)

/-! ## Stored ranges through the CORE's accessor (R73, R75) -/

section
variable {s t : State} {base : Nat} {bs : List Byte} (ht : t.mem = s.mem.writeBytes base bs)
include ht

theorem State.memRead_stored (hwf : s.mem.wf) (hb : base + bs.length ≤ 4096) (n : Nat) (hn : n < bs.length) :
    t.memRead (base + n) = some bs[n] := by
  have hin : base + n < 4096 := by omega
  rw [State.memRead_of_lt t hin, ht, Memory.read_writeBytes_inside s.mem base bs n hn hb hwf]

theorem MemBut.stored : MemBut base bs.length s t := by
  intro a ha
  unfold State.memRead
  rw [ht, Memory.read_writeBytes_outside s.mem base bs a ha]

end

/-! ## The ROM load and the boot -/

theorem loadRom_of_fits {rom : List Byte} (s : State) (h : rom.length ≤ 3584) :
    loadRom rom s = .next { s with mem := s.mem.writeBytes 0x200 rom } := by
  rw [loadRom_eq, if_pos h]

/-- Settles O14: the ROM is a range stored from 0x200 up. -/
theorem romLoadPlacesBytesOrRefuses : Obligations.RomLoadPlacesBytesOrRefuses := by
  intro rom s hwf
  constructor
  · intro h
    exact ⟨_, loadRom_of_fits s h, State.memRead_stored rfl hwf (by omega), MemBut.stored rfl, Frame.setMem s _, rfl⟩
  · intro h
    rw [loadRom_eq, if_neg (Nat.not_le.2 h)]

/-- Above the font the contents at reset are zero (R51). -/
theorem Memory.background_of_ge {a : Nat} (h : 0x50 ≤ a) : Memory.background a = 0 := by
  have hlen : Config.fontTable.length = 0x50 := by decide
  rw [Memory.background, initialByte, List.getD_eq_default _ _ (by rw [hlen]; exact h)]

/-- Settles O15: the boot stores the table from 0x000 up and then the ROM from 0x200 up, two ranges that do not meet. -/
theorem bootPlacesFontAndRom : Obligations.BootPlacesFontAndRom := by
  refine ⟨fun font rom hfont hrom => ?_, fun rom => by rw [boot, reset_withFont]⟩
  have hwf : (State.reset.withFont font).mem.wf := wf_withFont (Nat.le_of_eq hfont) Memory.wf_nil
  have hrest : MemBut 0x200 rom.length (State.reset.withFont font)
      { State.reset.withFont font with mem := (State.reset.withFont font).mem.writeBytes 0x200 rom } := MemBut.stored rfl
  refine ⟨_, loadRom_of_fits _ hrom, ?table, ?program, ?zero, rfl, Frame.setMem State.reset _⟩
  case table =>
    intro a ha
    rw [hrest a (by omega), List.getElem?_eq_getElem (by omega)]
    have hfits : 0 + font.length ≤ 4096 := by omega
    have hread := State.memRead_stored (s := State.reset) (t := State.reset.withFont font) rfl Memory.wf_nil hfits a
      (by omega)
    rwa [Nat.zero_add] at hread
  case program =>
    intro n hn
    rw [List.getElem?_eq_getElem hn]
    exact State.memRead_stored rfl hwf (by omega) n hn
  case zero =>
    intro a hlow hhigh hout
    have htable : MemBut 0 font.length State.reset (State.reset.withFont font) := MemBut.stored rfl
    rw [hrest a hout, htable a (by omega), State.memRead_of_lt State.reset hhigh, ← Memory.background_of_ge hlow]
    rfl

/-- Settles O10: an address below 4096 reads as the contents at reset; the other rows are fields of `State.reset`. -/
theorem resetState : Obligations.ResetState := by
  have hlen : Config.fontTable.length = 0x50 := by decide
  refine ⟨?font, ?zero, ?outside, ?regs, rfl, rfl, rfl, fun _ => rfl, rfl, rfl, FrameBuffer.pixel_clear, ?keys, rfl, rfl⟩
  case font =>
    intro a ha
    have hmem : a < 4096 := by omega
    rw [State.memRead_of_lt State.reset hmem, List.getElem?_eq_getElem (by omega), List.getElem_eq_getD 0]
    rfl
  case zero =>
    intro a hlow hhigh
    rw [State.memRead_of_lt State.reset hhigh, ← Memory.background_of_ge hlow]
    rfl
  case outside => exact fun a ha => State.memRead_of_ge State.reset ha
  case regs => exact fun j => by simp [State.reg, State.reset]
  case keys => exact fun k => by simp [State.key, State.reset]

end Sys2Proof.Machine
end

section
/-! The accesses through `I` (42_index_memory.md R183 to R186; 20_memory.md R76, R83): stored digits and registers, loaded
registers, and the halt past 0xFFF. -/

namespace Sys2Proof.Machine

/-! ## Past 0xFFF -/

/-- Settles O39: each arm's check is `iBase + count ≤ 4096`, and it fails. -/
theorem accessPastMemoryHalts : Obligations.AccessPastMemoryHalts := by
  intro i s h
  cases i with
  | ldB x =>
    have hout : s.iBase + 2 > 0xFFF := h
    exact halts_of_raiseFault (by rw [exec_ldB_eq, if_neg (by omega)])
  | ldMemVx x =>
    have hout : s.iBase + x.toNat > 0xFFF := h
    exact halts_of_raiseFault (by rw [exec_ldMemVx_eq, if_neg (by omega)])
  | ldVxMem x =>
    have hout : s.iBase + x.toNat > 0xFFF := h
    exact halts_of_raiseFault (by rw [exec_ldVxMem_eq, if_neg (by omega)])
  | drw x y n =>
    obtain ⟨hpos, hout⟩ : n.toNat > 0 ∧ s.iBase + n.toNat - 1 > 0xFFF := h
    exact halts_of_raiseFault (by rw [exec_drw_eq, if_neg (by omega)])
  | _ => exact h.elim

/-! ## Bytes stored at `I` -/

/-- The state a store of `bs` in range ends in: what FX33 and FX55 do (R183, R185). -/
def State.storedAtI (bs : List Byte) (s : State) : State := { s.advance with mem := s.mem.writeBytes s.iBase bs }

theorem exec_ldB_of_fits (x : Nibble) (s : State) (h : s.iBase + 3 ≤ 4096) :
    exec (.ldB x) s = .next (s.storedAtI (bcdDigits (s.reg x))) := by
  rw [exec_ldB_eq, if_pos h]
  rfl

theorem exec_ldMemVx_of_fits (x : Nibble) (s : State) (h : s.iBase + (x.toNat + 1) ≤ 4096) :
    exec (.ldMemVx x) s = .next (s.storedAtI (s.regsTo x)) := by
  rw [exec_ldMemVx_eq, if_pos h]
  rfl

theorem State.memRead_storedAtI {s : State} {bs : List Byte} (hwf : s.mem.wf) (h : s.iBase + bs.length ≤ 4096) (n : Nat)
    (hn : n < bs.length) : (s.storedAtI bs).memRead (s.iBase + n) = some bs[n] :=
  State.memRead_stored rfl hwf h n hn

/-- A store in range writes its bytes and advances. -/
theorem State.storedAtI_rest (s : State) {bs : List Byte} {count : Nat} (hlen : bs.length = count) :
    MemBut s.iBase count s (s.storedAtI bs) ∧ (s.storedAtI bs).pc = s.pc + 2 ∧ Frame [.mem] s (s.storedAtI bs) :=
  ⟨hlen ▸ MemBut.stored rfl, rfl, Frame.advance_setMem s _⟩

/-- Settles O35: the three digits are stored at `I`, and each fits a byte. -/
theorem storeBcdResult : Obligations.StoreBcdResult := by
  intro x s hwf hbase
  have hbyte := (s.reg x).isLt
  have hfits : s.iBase + (bcdDigits (s.reg x)).length ≤ 4096 := by
    rw [length_bcdDigits]
    omega
  have hread := State.memRead_storedAtI hwf hfits
  refine ⟨_, exec_ldB_of_fits x s hfits, ⟨_, _, _, hread 0 (by simp), hread 1 (by simp), hread 2 (by simp), ?_, ?_, ?_⟩,
    s.storedAtI_rest (length_bcdDigits _)⟩
  all_goals exact (BitVec.toNat_ofNat _ _).trans (Nat.mod_eq_of_lt (by omega))

/-! ## Registers stored and loaded -/

/-- The stored block of registers holds `V[j]` at its byte `j` (R185). -/
theorem State.memRead_regsStored {s : State} {x : Nibble} (hwf : s.mem.wf) (h : s.iBase + (x.toNat + 1) ≤ 4096)
    (j : Nibble) (hj : j.toNat ≤ x.toNat) : (s.storedAtI (s.regsTo x)).memRead (s.iBase + j.toNat) = some (s.reg j) := by
  have hlen : (s.regsTo x).length = x.toNat + 1 := State.length_regsTo s x
  have hin : j.toNat < (s.regsTo x).length := by omega
  rw [State.memRead_storedAtI hwf (by omega) j.toNat hin, State.getElem_regsTo]

/-- Settles O36: the registers are a stored range of `x + 1` bytes. -/
theorem registerDumpResult : Obligations.RegisterDumpResult := by
  intro x s hwf h
  have hfits : s.iBase + (x.toNat + 1) ≤ 4096 := by omega
  exact ⟨_, exec_ldMemVx_of_fits x s hfits, State.memRead_regsStored hwf hfits, s.storedAtI_rest (State.length_regsTo s x)⟩

theorem exec_ldVxMem_of_fits (x : Nibble) (s : State) (h : s.iBase + (x.toNat + 1) ≤ 4096) : exec (.ldVxMem x) s =
    .next (s.advance.loadRegs 0 ((List.range (x.toNat + 1)).map fun k => s.mem.read (s.iBase + k))) := by
  rw [exec_ldVxMem_eq, if_pos h]

/-- A loaded block gives `V[j]` the byte `j` of the range (R186). -/
theorem State.reg_loaded (s t : State) (x j : Nibble) (hj : j.toNat ≤ x.toNat) :
    (t.loadRegs 0 ((List.range (x.toNat + 1)).map fun k => s.mem.read (s.iBase + k))).reg j =
      s.mem.read (s.iBase + j.toNat) := by
  have hx := x.isLt
  rw [State.reg_loadRegs _ 0 t j (by simpa using by omega), dif_pos ⟨Nat.zero_le _, by simpa using by omega⟩]
  simp

/-- Settles O37: the registers up to `x` receive the bytes of the range, the others are past the block. -/
theorem registerLoadResult : Obligations.RegisterLoadResult := by
  intro x s h
  have hx := x.isLt
  refine ⟨_, exec_ldVxMem_of_fits x s (by omega), fun j hj => ?loaded, fun j hj => ?kept, State.loadRegs_pc 0 _ s.advance,
    Frame.advance_loadRegs s 0 _⟩
  case loaded =>
    have hin : s.iBase + j.toNat < 4096 := by omega
    rw [State.memRead_of_lt s hin, State.reg_loaded s s.advance x j hj]
  case kept => exact State.reg_loadRegs_of_ge _ s.advance j (by simpa using by omega) (by simpa using by omega)

/-- Settles O38: the load reads the bytes the dump stored, because the dump keeps `I`. -/
theorem dumpThenLoadRestores : Obligations.DumpThenLoadRestores := by
  intro x v s hwf h
  have hfits : s.iBase + (x.toNat + 1) ≤ 4096 := by omega
  refine ⟨_, _, exec_ldMemVx_of_fits x s hfits, exec_ldVxMem_of_fits x { s.storedAtI (s.regsTo x) with v := v } hfits,
    fun j hj => ?_, State.loadRegs_i 0 _ _⟩
  have hin : s.iBase + j.toNat < 4096 := by omega
  have hstored := State.memRead_regsStored hwf hfits j hj
  rw [State.memRead_of_lt _ hin] at hstored
  rw [State.reg_loaded _ _ x j hj]
  exact Option.some.inj hstored

/-- A fetch of two readable bytes gives the word they make (R72, R100). -/
theorem State.fetch_of_memRead {s : State} {hi lo : Byte} (hpc : s.pc.toNat ≤ 0xFFE)
    (hhi : s.memRead s.pc.toNat = some hi) (hlo : s.memRead (s.pc.toNat + 1) = some lo) :
    s.fetch = some (wordOfBytes hi lo) := by
  rw [State.fetch, if_pos hpc, hhi, hlo]
  rfl

/-- Settles O8: the fetch reads the bytes `n` and `n + 1` of the stored block. -/
theorem nextFetchSeesStoredRegisters : Obligations.NextFetchSeesStoredRegisters := by
  intro x n s hwf h hn
  have hx := x.isLt
  have hsucc : (n + 1).toNat = n.toNat + 1 := by bv_omega
  have hpc : (BitVec.ofNat 16 (s.iBase + n.toNat)).toNat = s.iBase + n.toNat :=
    (BitVec.toNat_ofNat _ _).trans (Nat.mod_eq_of_lt (by omega))
  have hfits : s.iBase + (x.toNat + 1) ≤ 4096 := by omega
  have hhi := State.memRead_regsStored hwf hfits n (by omega)
  have hlo := State.memRead_regsStored hwf hfits (n + 1) (by omega)
  rw [hsucc, ← Nat.add_assoc] at hlo
  refine ⟨_, exec_ldMemVx_of_fits x s hfits, State.fetch_of_memRead ?_ ?_ ?_⟩
  · rw [State.setPc_pc, hpc]
    omega
  · rw [State.setPc_pc, hpc]
    exact hhi
  · rw [State.setPc_pc, hpc]
    exact hlo

end Sys2Proof.Machine
end

section
/-! The draw (43_display.md R201 to R205): what `blit_spec` says of the pixels and the collision, in the terms of
`spriteAt`. -/

namespace Sys2Proof.Machine

/-! ## The pixels and the collision of one draw -/

section
variable {rows : List Byte} (hlen : rows.length ≤ 32) (s : State) (x y : Nibble)
include hlen

theorem State.pixel_draw (c : Fin Config.displayW) (r : Fin Config.displayH) : (s.draw .wrap x y rows).fb.pixel c r =
    (s.fb.pixel c r ^^ decide ((c, r) ∈ spriteCells .wrap (s.reg x).toNat (s.reg y).toNat rows)) := by
  obtain ⟨hpixel, -⟩ := blit_spec .wrap (s.reg x).toNat (s.reg y).toNat rows s.fb hlen
  exact hpixel c r

theorem State.pixel_draw_of_spriteAt {c : Fin Config.displayW} {r : Fin Config.displayH}
    (h : spriteAt rows (s.reg x).toNat (s.reg y).toNat c r) :
    (s.draw .wrap x y rows).fb.pixel c r = !s.fb.pixel c r := by
  rw [State.pixel_draw hlen, decide_eq_true ((mem_spriteCells_wrap _ _ rows c r).2 h), Bool.xor_true]

theorem State.pixel_draw_of_not_spriteAt {c : Fin Config.displayW} {r : Fin Config.displayH}
    (h : ¬ spriteAt rows (s.reg x).toNat (s.reg y).toNat c r) :
    (s.draw .wrap x y rows).fb.pixel c r = s.fb.pixel c r := by
  rw [State.pixel_draw hlen, decide_eq_false ((mem_spriteCells_wrap _ _ rows c r).not.2 h), Bool.xor_false]

/-- VF after a draw is the collision: a sprite pixel met a set cell (R204). -/
theorem State.reg_vf_draw_eq_one_iff : (s.draw .wrap x y rows).reg vf = 1 ↔
    ∃ c r, spriteAt rows (s.reg x).toNat (s.reg y).toNat c r ∧ s.fb.pixel c r = true := by
  obtain ⟨-, hcol⟩ := blit_spec .wrap (s.reg x).toNat (s.reg y).toNat rows s.fb hlen
  have hflag : ∀ g : Bool, flagByte g = 1 ↔ g = true := by decide
  rw [reg_vf_draw, hflag, hcol, List.any_eq_true]
  constructor
  · rintro ⟨⟨c, r⟩, hcell, hset⟩
    exact ⟨c, r, (mem_spriteCells_wrap _ _ rows c r).1 hcell, hset⟩
  · rintro ⟨c, r, hat, hset⟩
    exact ⟨(c, r), (mem_spriteCells_wrap _ _ rows c r).2 hat, hset⟩

theorem State.reg_vf_draw_eq_zero
    (h : ∀ c r, spriteAt rows (s.reg x).toNat (s.reg y).toNat c r → s.fb.pixel c r = false) :
    (s.draw .wrap x y rows).reg vf = 0 := by
  have hne : (s.draw .wrap x y rows).reg vf ≠ 1 := by
    rw [Ne, State.reg_vf_draw_eq_one_iff hlen]
    rintro ⟨c, r, hat, hset⟩
    rw [h c r hat] at hset
    cases hset
  have hflag := flagByte_zero_or_one (blit .wrap (s.reg x).toNat (s.reg y).toNat rows (s.fb, false)).2
  rw [← reg_vf_draw] at hflag
  exact hflag.resolve_right hne

end

/-! ## The sprite bytes (R201) -/

/-- The `n` bytes of a draw's sprite, from `I`. -/
def State.spriteRows (n : Nibble) (s : State) : List Byte := (List.range n.toNat).map fun k => s.mem.read (s.iBase + k)

@[simp] theorem State.length_spriteRows (s : State) (n : Nibble) : (s.spriteRows n).length = n.toNat := by
  simp [State.spriteRows]

theorem State.length_spriteRows_le (s : State) (n : Nibble) : (s.spriteRows n).length ≤ 32 := by
  have := n.isLt
  rw [State.length_spriteRows]
  omega

theorem State.memRead_spriteRows {s : State} {n : Nibble} (h : s.iBase + n.toNat ≤ 4096) (k : Nat) (hk : k < n.toNat) :
    s.memRead (s.iBase + k) = (s.spriteRows n)[k]? := by
  have hin : s.iBase + k < 4096 := by omega
  rw [State.memRead_of_lt s hin, State.spriteRows, List.getElem?_map, List.getElem?_range hk]
  rfl

/-- The sprite fits in memory when its last byte does, and always when it has no byte. -/
theorem State.sprite_fits {s : State} {n : Nibble} (h : n.toNat = 0 ∨ s.iBase + n.toNat - 1 ≤ 0xFFF) :
    s.iBase + n.toNat ≤ 4096 := by
  have hbase : s.iBase < 4096 := s.iBase_lt
  omega

theorem exec_drw_of_fits (x y n : Nibble) (s : State) (h : s.iBase + n.toNat ≤ 4096) :
    exec (.drw x y n) s = .next (s.advance.draw .wrap x y (s.spriteRows n)) := by
  rw [exec_drw_eq, if_pos h]
  rfl

/-! ## The statements -/

/-- Settles O42: the sprite's bytes are those from `I`; pixels and collision are the blit's. -/
theorem drawResult : Obligations.DrawResult := by
  intro x y n s h
  have hfits := State.sprite_fits h
  have hlen := s.length_spriteRows_le n
  refine ⟨s.spriteRows n, _, s.length_spriteRows n, State.memRead_spriteRows hfits, exec_drw_of_fits x y n s hfits,
    fun c r => State.pixel_draw_of_spriteAt hlen s.advance x y,
    fun c r => State.pixel_draw_of_not_spriteAt hlen s.advance x y,
    (State.reg_vf_draw_eq_one_iff hlen s.advance x y).2, State.reg_vf_draw_eq_zero hlen s.advance x y, fun j hj => ?_, rfl,
    Frame.advance_draw s _ x y _⟩
  exact reg_draw_ne _ x y _ s.advance (List.ne_of_not_mem_cons hj)

/-- Drawing a sprite again where the first draw of it has kept the coordinates restores every pixel (R205). -/
theorem State.pixel_draw_draw {rows : List Byte} (hlen : rows.length ≤ 32) {s t : State} {x y : Nibble}
    (hfb : t.fb = (s.draw .wrap x y rows).fb) (hx : t.reg x = s.reg x) (hy : t.reg y = s.reg y)
    (c : Fin Config.displayW) (r : Fin Config.displayH) : (t.draw .wrap x y rows).fb.pixel c r = s.fb.pixel c r := by
  rw [State.pixel_draw hlen, hx, hy, hfb, State.pixel_draw hlen, Bool.xor_assoc, Bool.xor_self, Bool.xor_false]

/-- The second draw collides exactly where the first has set a pixel that was clear. -/
theorem State.reg_vf_draw_draw_eq_one_iff {rows : List Byte} (hlen : rows.length ≤ 32) {s t : State} {x y : Nibble}
    (hfb : t.fb = (s.draw .wrap x y rows).fb) (hx : t.reg x = s.reg x) (hy : t.reg y = s.reg y) :
    (t.draw .wrap x y rows).reg vf = 1 ↔
      ∃ c r, spriteAt rows (s.reg x).toNat (s.reg y).toNat c r ∧ s.fb.pixel c r = false := by
  rw [State.reg_vf_draw_eq_one_iff hlen, hx, hy, hfb]
  refine exists_congr fun c => exists_congr fun r => and_congr_right fun hat => ?_
  rw [State.pixel_draw_of_spriteAt hlen s x y hat, Bool.not_eq_true']

/-- Settles O43: the first draw keeps memory, `I` and the coordinates, so the second draws the same cells. -/
theorem drawTwiceRestoresThePixels : Obligations.DrawTwiceRestoresThePixels := by
  intro x y n s hx hy h
  have hfits := State.sprite_fits h
  have hlen := s.length_spriteRows_le n
  have htx : (s.advance.draw .wrap x y (s.spriteRows n)).advance.reg x = s.reg x := reg_draw_ne _ x y _ s.advance hx
  have hty : (s.advance.draw .wrap x y (s.spriteRows n)).advance.reg y = s.reg y := reg_draw_ne _ x y _ s.advance hy
  exact ⟨s.spriteRows n, _, _, s.length_spriteRows n, State.memRead_spriteRows hfits, exec_drw_of_fits x y n s hfits,
    exec_drw_of_fits x y n (s.advance.draw .wrap x y (s.spriteRows n)) hfits,
    State.pixel_draw_draw hlen (s := s.advance) rfl htx hty,
    State.reg_vf_draw_draw_eq_one_iff hlen (s := s.advance) rfl htx hty⟩

end Sys2Proof.Machine
end

section
/-! The scheduler's cycle (60_exceptions.md R257, R258, R270 to R274; 30_encoding.md R100): what is fetched and executed, and
when nothing is. -/

namespace Sys2Proof.Machine

/-! ## The instruction a cycle executes -/

theorem executePhase_of_fetch {s : State} {w : Word} (hm : s.mode = .running) (hw : s.fetch = some w) :
    executePhase s = exec (decodeWord w) s := by
  simp only [executePhase, hm, hw]

theorem executePhase_of_not_running {s : State} (hm : s.mode ≠ .running) : executePhase s = .next s := by
  rcases executePhase_cases s with ⟨h, -⟩ | ⟨h, -⟩ | ⟨-, e⟩
  · exact absurd h hm
  · exact absurd h hm
  · exact e

theorem executePhase_of_pc_out {s : State} (hm : s.mode = .running) (hpc : 0xFFE < s.pc.toNat) :
    executePhase s = .next (s.raiseFault (.fetchOutOfBounds s.pc)) := by
  rcases executePhase_cases s with ⟨-, hin, -⟩ | ⟨-, -, e⟩ | ⟨h, -⟩
  · omega
  · exact e
  · exact absurd hm h

/-- Settles O5: the input phase keeps `PC` and memory, so the fetch reads the two bytes. -/
theorem stepRunsTheDecodedInstruction : Obligations.StepRunsTheDecodedInstruction := by
  intro s t i hi lo hr hm hpc hhi hlo hdec hexec
  have hi' : decodeWord (wordOfBytes hi lo) = i := by
    cases hdec
    rfl
  obtain ⟨hmem, -, hpc', -⟩ := State.applyEvents_keeps s.currentInput.events s
  have hfetch : (s.applyEvents s.currentInput.events).fetch = some (wordOfBytes hi lo) := by
    apply State.fetch_of_memRead
    · rwa [hpc']
    · rwa [hpc', State.memRead_congr hmem]
    · rwa [hpc', State.memRead_congr hmem]
  rw [step_eq hr, executePhase_of_fetch hm hfetch, hi', hexec, finishCycle_next]

/-- Settles O7: the fetch gives no word, and the end phases keep the mode and the log. -/
theorem fetchAboveLimitHalts : Obligations.FetchAboveLimitHalts := by
  intro s hr hm hpc
  obtain ⟨-, -, hpc', -, -, -, -, hdiag, -⟩ := State.applyEvents_keeps s.currentInput.events s
  have e := executePhase_of_pc_out hm (by rwa [hpc'])
  have hend := State.endPhases_keep s.currentInput.timerDue
    ((s.applyEvents s.currentInput.events).raiseFault (.fetchOutOfBounds (s.applyEvents s.currentInput.events).pc))
  obtain ⟨-, -, -, -, -, -, -, hmode', hdiag'⟩ := hend
  refine ⟨_, by rw [step_eq hr, e, finishCycle_next], ?_, ?_⟩
  · rw [hmode', State.raiseFault_mode, hpc']
  · rw [hdiag', State.raiseFault_diag, hdiag]

/-! ## The placed word (the model's interface, log entry 5) -/

theorem decodeTableWord_eq_some {nbits w : Nat} {i : Instr} (h : decodeTableWord nbits w = some i) :
    i = decodeWord (BitVec.ofNat 16 (w % 2 ^ nbits)) := by
  unfold decodeTableWord at h
  split at h
  · simp only [decode, wordOfBytes_bytes, Option.some.injEq] at h
    exact h.symm
  · cases h

theorem State.fetchAddr_le (s : State) : s.fetchAddr ≤ 0xFFE := by
  unfold State.fetchAddr
  split
  · assumption
  · decide

theorem State.placeWord_pc (w : Word) (s : State) : (s.placeWord w).pc.toNat = s.fetchAddr := by
  have hlt : s.fetchAddr < 2 ^ 16 := Nat.lt_of_le_of_lt s.fetchAddr_le (by decide)
  exact (BitVec.toNat_ofNat _ _).trans (Nat.mod_eq_of_lt hlt)

/-- The next fetch reads the placed word. -/
theorem State.fetch_placeWord {s : State} (w : Word) (hwf : s.mem.wf) : (s.placeWord w).fetch = some w := by
  have hle := s.fetchAddr_le
  have hfits : s.fetchAddr + [highByte w, lowByte w].length ≤ 4096 := by
    simp only [List.length_cons, List.length_nil]
    omega
  have hread := State.memRead_stored (s := s) (t := s.placeWord w) rfl hwf hfits
  rw [State.fetch_of_memRead (hi := highByte w) (lo := lowByte w), wordOfBytes_bytes]
  · rwa [State.placeWord_pc]
  · rw [State.placeWord_pc]
    exact hread 0 (by simp)
  · rw [State.placeWord_pc]
    exact hread 1 (by simp)

theorem State.events_placeWord (w : Word) (s : State) : (s.placeWord w).currentInput.events = [] := by
  cases h : s.inputs <;> simp [State.currentInput, State.placeWord, h]

/-- The cycle after a word is placed executes it: the placed state runs and has no events. -/
theorem step_placeWord {s : State} (w : Word) (hwf : s.mem.wf) : step (s.placeWord w) =
    finishCycle (s.placeWord w).currentInput.timerDue (exec (decodeWord w) (s.placeWord w)) := by
  have hr : ∀ r, (s.placeWord w).mode ≠ .halted r := fun r => (nofun : Mode.running ≠ .halted r)
  rw [step_eq hr, State.events_placeWord, State.applyEvents_nil, executePhase_of_fetch rfl (State.fetch_placeWord w hwf)]

/-- Settles O6: the placed word decodes to the table's instruction; after reset the fields written beside memory have those
values already. -/
theorem placedWordIsTheNextInstruction : Obligations.PlacedWordIsTheNextInstruction := by
  constructor
  · intro s nbits w i hwf hdec
    rw [decodeTableWord_eq_some hdec]
    exact step_placeWord _ hwf
  · intro nbits w
    exact ⟨Frame.setMem State.reset _, rfl⟩

/-! ## Halted runs and timers -/

/-- Settles O51: a cycle of a halted CORE ends in the same state, by induction over the cycles. -/
theorem haltedIsFinal : Obligations.HaltedIsFinal := by
  intro n s r h
  induction n with
  | zero => exact core_run_zero s
  | succ n ih => rw [core_run_succ n (step_halted h), ih]

/-- A run that no fault has ended and that has ended was quit. -/
theorem State.quit_of_halted {s : State} {r : HaltReason} (hf : s.faulted = false) (h : s.mode = .halted r) : r = .quit := by
  cases r with
  | quit => rfl
  | fault f => simp [State.faulted, h] at hf

/-- What the end phases leave outside the timers and the model's own fields. -/
theorem Frame.endPhases (due : Bool) (s : State) : Frame [.delay, .sound, .host] s (s.timerPhase due).endCycle := by
  obtain ⟨hmem, hv, hi, -, hstack, hfb, hk, hmode, hdiag⟩ := State.endPhases_keep due s
  exact Frame.intro (fun _ => hv) (fun _ => hmem) (fun _ => hi) (fun _ => hstack) (absurd List.mem_cons_self)
    (absurd (by decide)) (fun _ => hfb) (fun _ => hk) (fun _ => hmode) (fun _ => hdiag) (absurd (by decide))

/-- The timers after the end phases, where a tick counts: one less, floored at zero (R272). -/
theorem State.timers_ticked {due : Bool} {s : State} (hdue : due = true) (hr : ∀ r, s.mode ≠ .halted r) :
    (s.timerPhase due).endCycle.dt.toNat = s.dt.toNat - 1 ∧ (s.timerPhase due).endCycle.st.toNat = s.st.toNat - 1 := by
  rcases State.timerPhase_cases due s with ⟨-, hnone | ⟨r, h⟩⟩ | ⟨e, -, -⟩
  · cases hdue.symm.trans hnone
  · exact absurd h (hr r)
  · rw [e]
    exact ⟨toNat_tick s.dt, toNat_tick s.st⟩

/-- The timers after the end phases, where no tick counts (R257). -/
theorem State.timers_kept {due : Bool} {s : State} (h : (∃ r, s.mode = .halted r) ∨ due = false) :
    (s.timerPhase due).endCycle.dt = s.dt ∧ (s.timerPhase due).endCycle.st = s.st := by
  rcases State.timerPhase_cases due s with ⟨e, -⟩ | ⟨-, hdue, hr⟩
  · rw [e]
    exact ⟨rfl, rfl⟩
  · rcases h with ⟨r, h⟩ | h
    · exact absurd h (hr r)
    · cases hdue.symm.trans h

/-- Settles O53: the cycle is the execute phase and the end phases; a state that is not faulted is halted by Quit alone. -/
theorem timersTickAfterTheInstruction : Obligations.TimersTickAfterTheInstruction := by
  intro s t hr h
  obtain ⟨-, -, -, hpc, -, -, -, hmode, hdiag⟩ := State.endPhases_keep s.currentInput.timerDue t
  refine ⟨_, by rw [step_eq hr, h, finishCycle_next], hmode, hdiag, fun hf => ⟨hpc, Frame.endPhases _ t, ?tick, ?keep⟩⟩
  case tick =>
    intro hquit hdue
    refine State.timers_ticked hdue fun r hm => hquit ?_
    rw [hm, State.quit_of_halted hf hm]
  case keep => exact fun h => State.timers_kept (h.imp_left fun hm => ⟨_, hm⟩)

end Sys2Proof.Machine
end

section
/-! The input phase: the latches, the end of a wait, `Quit`, and a wait that no press ends (44_input_timers.md R222, R223;
60_exceptions.md R270 to R274). -/

namespace Sys2Proof.Machine

/-! ## What the input phase leaves alone (R271) -/

theorem Frame.applyEvents (es : List Event) (s : State) : Frame [.regs, .keys, .mode] s (s.applyEvents es) := by
  obtain ⟨hmem, hi, -, hstack, hdt, hst, hfb, hdiag, hinputs, hcycle⟩ := State.applyEvents_keeps es s
  exact Frame.intro (absurd List.mem_cons_self) (fun _ => hmem) (fun _ => hi) (fun _ => hstack) (fun _ => hdt)
    (fun _ => hst) (fun _ => hfb) (absurd (by decide)) (absurd (by decide)) (fun _ => hdiag) (fun _ => ⟨hinputs, hcycle⟩)

/-- Where no wait can end, the input phase writes latches alone (R223). -/
theorem Frame.applyEvents_no_resume {es : List Event} {s : State} (hq : ∀ e ∈ es, e ≠ .quit)
    (h : (∀ x, s.mode ≠ .awaitingKey x) ∨ NoFreshPress s.key es) : Frame [.keys] s (s.applyEvents es) := by
  obtain ⟨hmem, hi, -, hstack, hdt, hst, hfb, hdiag, hinputs, hcycle⟩ := State.applyEvents_keeps es s
  obtain ⟨hmode, hv⟩ := State.applyEvents_no_resume es s hq h
  exact Frame.intro (fun _ => hv) (fun _ => hmem) (fun _ => hi) (fun _ => hstack) (fun _ => hdt) (fun _ => hst)
    (fun _ => hfb) (absurd List.mem_cons_self) (fun _ => hmode) (fun _ => hdiag) (fun _ => ⟨hinputs, hcycle⟩)

theorem State.applyEvents_pc (es : List Event) (s : State) : (s.applyEvents es).pc = s.pc := by
  obtain ⟨-, -, hpc, -⟩ := State.applyEvents_keeps es s
  exact hpc

/-! ## The last event of a key -/

theorem latchAfter_last_press {k : Nibble} {fs gs : List Event} (b : Bool) (hfs : ∀ e ∈ fs, e ≠ .quit)
    (hgs : ∀ e ∈ gs, e ≠ .press k ∧ e ≠ .release k) : latchAfter k b (fs ++ .press k :: gs) = true := by
  rw [latchAfter_append k b fs _ hfs, latchAfter, latchAfter_of_not_named k _ gs hgs]
  simp

theorem latchAfter_last_release {k : Nibble} {fs gs : List Event} (b : Bool) (hfs : ∀ e ∈ fs, e ≠ .quit)
    (hgs : ∀ e ∈ gs, e ≠ .press k ∧ e ≠ .release k) : latchAfter k b (fs ++ .release k :: gs) = false := by
  rw [latchAfter_append k b fs _ hfs, latchAfter, latchAfter_of_not_named k _ gs hgs]
  simp

/-- Settles O48: every latch is `latchAfter`'s, and the rest of the state is in the phase's frame. -/
theorem inputPhaseFollowsTheEvents : Obligations.InputPhaseFollowsTheEvents := by
  intro s es hq
  refine ⟨?press, ?release, ?kept, State.applyEvents_pc es s, Frame.applyEvents es s, Frame.applyEvents_no_resume hq⟩
  case press =>
    rintro k fs gs rfl hgs
    rw [State.key_applyEvents _ s hq]
    exact latchAfter_last_press _ (fun e he => hq e (List.mem_append_left _ he)) hgs
  case release =>
    rintro k fs gs rfl hgs
    rw [State.key_applyEvents _ s hq]
    exact latchAfter_last_release _ (fun e he => hq e (List.mem_append_left _ he)) hgs
  case kept =>
    intro k hk
    rw [State.key_applyEvents _ s hq, latchAfter_of_not_named k _ es hk]

/-! ## The end of a wait (R223) -/

/-- A press that finds its latch released ends a wait. -/
theorem State.press_of_fresh {s : State} {x k : Nibble} (hm : s.mode = .awaitingKey x) (hk : s.key k = false) :
    s.press k = ((s.setReg x (k.setWidth 8)).setMode .running).setKey k true := by
  simp [State.press, hm, hk]

/-- The input phase that holds a fresh press, with no other before it, ends in a running CORE whose register is the key code;
the events after the press change latches alone. -/
theorem State.applyEvents_resume {s : State} {x k : Nibble} {fs gs : List Event} (hm : s.mode = .awaitingKey x)
    (hfs : ∀ e ∈ fs, e ≠ .quit) (hgs : ∀ e ∈ gs, e ≠ .quit) (hfresh : NoFreshPress s.key fs)
    (hk : latchAfter k (s.key k) fs = false) :
    (s.applyEvents (fs ++ .press k :: gs)).mode = .running ∧
    (s.applyEvents (fs ++ .press k :: gs)).v = (s.setReg x (k.setWidth 8)).v := by
  obtain ⟨hmode, hv⟩ := State.applyEvents_no_resume fs s hfs (.inr hfresh)
  rw [State.applyEvents_append fs _ s hfs, State.applyEvents_press,
    State.press_of_fresh (hmode.trans hm) (by rw [State.key_applyEvents fs s hfs, hk])]
  obtain ⟨hmode', hv'⟩ := State.applyEvents_no_resume gs
    ((((s.applyEvents fs).setReg x (k.setWidth 8)).setMode .running).setKey k true) hgs (.inl nofun)
  refine ⟨hmode', hv'.trans ?_⟩
  simp [hv]

/-- Settles O49: the state after the input phase is the one from which the cycle executes. -/
theorem pressResumesAWait : Obligations.PressResumesAWait := by
  intro s x k fs gs hm hev hq hfresh hk
  have hfs : ∀ e ∈ fs, e ≠ .quit := fun e he => hq e (List.mem_append_left _ he)
  have hgs : ∀ e ∈ gs, e ≠ .quit := fun e he => hq e (List.mem_append_right _ he)
  have hall : ∀ e ∈ fs ++ .press k :: gs, e ≠ .quit := by
    intro e he
    rcases List.mem_append.1 he with he | he
    · exact hfs e he
    · rcases List.mem_cons.1 he with rfl | he
      · nofun
      · exact hgs e he
  obtain ⟨hmode, hv⟩ := State.applyEvents_resume hm hfs hgs hfresh hk
  have hreg : ∀ j, (s.applyEvents (fs ++ .press k :: gs)).reg j = (s.setReg x (k.setWidth 8)).reg j := State.reg_congr hv
  refine ⟨s.applyEvents (fs ++ .press k :: gs), ?cycle, hmode, ?code, ?regs, State.applyEvents_pc _ s,
    Frame.applyEvents _ s, State.key_applyEvents _ s hall⟩
  case cycle => rw [step_eq (by rw [hm]; nofun), hev]
  case code =>
    have hlt := k.isLt
    rw [hreg, State.reg_setReg_self, BitVec.toNat_setWidth]
    omega
  case regs =>
    intro j hj
    rw [hreg, State.reg_setReg_ne s x j _ (List.ne_of_not_mem_cons hj)]

/-! ## Quit (R274) -/

theorem State.applyEvents_append_quit {es : List Event} (fs : List Event) (s : State) (hes : ∀ e ∈ es, e ≠ .quit) :
    s.applyEvents (es ++ .quit :: fs) = (s.applyEvents es).setMode (.halted .quit) := by
  rw [State.applyEvents_append es _ s hes, State.applyEvents_quit]

/-- Settles O50: after the events before `Quit` the mode alone is written, and neither phase acts on a halted CORE. -/
theorem quitEndsTheRun : Obligations.QuitEndsTheRun := by
  intro s es fs hr hev hes
  have hstep : step s = .next ((s.applyEvents es).setMode (.halted .quit)).endCycle := by
    rw [step_eq hr, hev, State.applyEvents_append_quit fs s hes,
      executePhase_of_not_running (by rw [State.setMode_mode]; nofun), finishCycle_next]
    rfl
  obtain ⟨hmem, hi, hpc, hstack, hdt, hst, hfb, hdiag, -, -⟩ := State.applyEvents_keeps es s
  exact ⟨_, hstep, rfl, hpc, Frame.intro (absurd List.mem_cons_self) (fun _ => hmem) (fun _ => hi) (fun _ => hstack)
    (fun _ => hdt) (fun _ => hst) (fun _ => hfb) (absurd (by decide)) (absurd (by decide)) (fun _ => hdiag)
    (absurd (by decide)), fun _ => rfl, fun _ => rfl⟩

/-! ## A wait that no press ends (R222, R223, R264) -/

/-- One cycle of a wait that no press ends: the input and the timer phase act, and nothing is executed. -/
theorem step_waiting {s : State} {x : Nibble} (hm : s.mode = .awaitingKey x) (hq : ∀ e ∈ s.currentInput.events, e ≠ .quit)
    (hfresh : NoFreshPress s.key s.currentInput.events) :
    step s = .next ((s.applyEvents s.currentInput.events).timerPhase s.currentInput.timerDue).endCycle := by
  obtain ⟨hmode, -⟩ := State.applyEvents_no_resume _ s hq (.inr hfresh)
  rw [step_eq (by rw [hm]; nofun), executePhase_of_not_running (by rw [hmode, hm]; nofun), finishCycle_next]

/-- What a wait has done after the cycles of `cs`: the timers have counted and the latches have followed the events. -/
structure Waited (x : Nibble) (cs : List CycleInput) (s t : State) : Prop where
  mode   : t.mode = .awaitingKey x
  inputs : s.inputs = cs ++ t.inputs
  pc     : t.pc = s.pc
  delay  : t.dt.toNat = s.dt.toNat - ticksDue cs
  sound  : t.st.toNat = s.st.toNat - ticksDue cs
  keys   : ∀ k, t.key k = latchAfter k (s.key k) (cs.flatMap CycleInput.events)
  frame  : Frame [.delay, .sound, .keys, .host] s t

theorem Waited.nil {x : Nibble} {s : State} (hm : s.mode = .awaitingKey x) : Waited x [] s s where
  mode := hm
  inputs := rfl
  pc := rfl
  delay := rfl
  sound := rfl
  keys _ := rfl
  frame := Frame.intro (fun _ => rfl) (fun _ => rfl) (fun _ => rfl) (fun _ => rfl) (fun _ => rfl) (fun _ => rfl)
    (fun _ => rfl) (fun _ => rfl) (fun _ => rfl) (fun _ => rfl) (fun _ => ⟨rfl, rfl⟩)

/-- Floored subtraction of the ticks of one cycle and of those after it. -/
theorem toNat_sub_ticksDue {a b d : Nat} {c : CycleInput} {cs : List CycleInput} (h : b = a - ticksDue [c])
    (h' : d = b - ticksDue cs) : d = a - ticksDue (c :: cs) := by
  have hcons : ticksDue (c :: cs) = ticksDue [c] + ticksDue cs := List.countP_append (l₁ := [c])
  omega

theorem Waited.cons {x : Nibble} {c : CycleInput} {cs : List CycleInput} {s t u : State} (h : Waited x [c] s t)
    (h' : Waited x cs t u) (hq : ∀ e ∈ c.events, e ≠ .quit) : Waited x (c :: cs) s u where
  mode := h'.mode
  inputs := by rw [h.inputs, h'.inputs]; rfl
  pc := h'.pc.trans h.pc
  delay := toNat_sub_ticksDue h.delay h'.delay
  sound := toNat_sub_ticksDue h.sound h'.sound
  keys k := by
    rw [h'.keys, h.keys, List.flatMap_singleton, List.flatMap_cons, latchAfter_append k _ c.events _ hq]
  frame := h.frame.trans h'.frame

/-- The timers after one cycle's input and end phases. -/
theorem toNat_timers_of_tick (c : CycleInput) {s : State} (hr : ∀ r, s.mode ≠ .halted r) :
    (s.timerPhase c.timerDue).endCycle.dt.toNat = s.dt.toNat - ticksDue [c] ∧
    (s.timerPhase c.timerDue).endCycle.st.toNat = s.st.toNat - ticksDue [c] := by
  cases hdue : c.timerDue with
  | true =>
    have hone : ticksDue [c] = 1 := by simp [ticksDue, hdue]
    rw [hone]
    exact State.timers_ticked rfl hr
  | false =>
    have hzero : ticksDue [c] = 0 := by simp [ticksDue, hdue]
    obtain ⟨hdt, hst⟩ := State.timers_kept (due := false) (s := s) (.inr rfl)
    rw [hzero, hdt, hst]
    exact ⟨rfl, rfl⟩

theorem State.inputs_endPhases (due : Bool) (s : State) : (s.timerPhase due).endCycle.inputs = s.inputs.tail := by
  rcases State.timerPhase_cases due s with ⟨e, -⟩ | ⟨e, -⟩ <;> rw [e] <;> rfl

/-- One cycle of a wait that no press ends. -/
theorem step_waited {s : State} {x : Nibble} {c : CycleInput} {cs : List CycleInput} (hm : s.mode = .awaitingKey x)
    (hin : s.inputs = c :: cs) (hq : ∀ e ∈ c.events, e ≠ .quit) (hfresh : NoFreshPress s.key c.events) :
    ∃ t, step s = .next t ∧ t.inputs = cs ∧ Waited x [c] s t := by
  have hc : s.currentInput = c := State.currentInput_cons s c cs hin
  obtain ⟨hmode, -⟩ := State.applyEvents_no_resume c.events s hq (.inr hfresh)
  have hinput := Frame.applyEvents_no_resume hq (.inr hfresh)
  have hend := Frame.endPhases c.timerDue (s.applyEvents c.events)
  obtain ⟨-, -, -, hpc, -, -, hkeys, hmode', -⟩ := State.endPhases_keep c.timerDue (s.applyEvents c.events)
  obtain ⟨hdt, hst⟩ := toNat_timers_of_tick c (s := s.applyEvents c.events) (by rw [hmode, hm]; nofun)
  have hinputs : ((s.applyEvents c.events).timerPhase c.timerDue).endCycle.inputs = cs := by
    obtain ⟨hkept, -⟩ := hinput .host (by decide)
    rw [State.inputs_endPhases, hkept, hin]
    rfl
  refine ⟨_, by rw [step_waiting hm (hc ▸ hq) (hc ▸ hfresh), hc], hinputs, ?_⟩
  exact
    { mode := hmode'.trans (hmode.trans hm)
      inputs := by rw [hinputs, hin]; rfl
      pc := hpc.trans (State.applyEvents_pc c.events s)
      delay := by rw [hdt, hinput .delay (by decide)]
      sound := by rw [hst, hinput .sound (by decide)]
      keys := fun k => by rw [State.key_congr hkeys, State.key_applyEvents c.events s hq, List.flatMap_singleton]
      frame := (hinput.weaken (by decide)).trans (hend.weaken (by decide)) }

/-- Settles O54: by induction over the cycles, from the latches each cycle leaves. -/
theorem timersCountDuringAWait : Obligations.TimersCountDuringAWait := by
  intro cs
  suffices hrun : ∀ (rest : List CycleInput) (s : State) (x : Nibble), s.mode = .awaitingKey x → s.inputs = cs ++ rest →
      (∀ e ∈ cs.flatMap CycleInput.events, e ≠ .quit) → NoFreshPress s.key (cs.flatMap CycleInput.events) →
      ∃ t, core.run cs.length s = .next t ∧ Waited x cs s t by
    intro rest s x hm hin hq hfresh
    obtain ⟨t, hrun, hw⟩ := hrun rest s x hm hin hq hfresh
    exact ⟨t, hrun, hw.mode, List.append_cancel_left (hw.inputs.symm.trans hin), hw.pc, hw.delay, hw.sound, hw.keys, hw.frame⟩
  induction cs with
  | nil => exact fun rest s x hm _ _ _ => ⟨s, core_run_zero s, Waited.nil hm⟩
  | cons c cs ih =>
    intro rest s x hm hin hq hfresh
    rw [List.flatMap_cons] at hq hfresh
    have hqc : ∀ e ∈ c.events, e ≠ .quit := fun e he => hq e (List.mem_append_left _ he)
    have hqcs : ∀ e ∈ cs.flatMap CycleInput.events, e ≠ .quit := fun e he => hq e (List.mem_append_right _ he)
    obtain ⟨hfc, hfcs⟩ := hfresh.split hqc
    obtain ⟨t, hstep, hint, hw⟩ := step_waited hm hin hqc hfc
    have hkeys : t.key = fun k => latchAfter k (s.key k) c.events := by
      funext k
      rw [hw.keys, List.flatMap_singleton]
    obtain ⟨u, hrun, hw'⟩ := ih rest t x hw.mode hint hqcs (hkeys ▸ hfcs)
    exact ⟨u, (core_run_succ cs.length hstep).trans hrun, hw.cons hw' hqc⟩

end Sys2Proof.Machine
end
